-- ==== Sys2Proof/Word.lean ====
section
/-! DEFINITION. The word and the bit of HFC, and nothing else (R8, R9).
-/
namespace Sys2Proof

/-- A register and a command word: `XLEN = 32` bits (R8). -/
abbrev Word := BitVec 32

/-- One element of a bit string, one cell of FB or OB (R9, R25): `true` is 1, `false` is 0. -/
abbrev Bit := Bool

end Sys2Proof
end

