-- ==== Sys2Proof/Config.lean ====
section
/-! DEFINITION. The parameters fixed when the block is built (R5 to R8, R172). NMAX is the one the
spec leaves open (D4) and EXTRACT_ORDER the one it decides but keeps as a parameter (D16): both are
fields of `Config`, so that every claim can be made for all of their values. No result of HFC is
left open, so there is no opaque constant here.
-/
namespace Sys2Proof

/-- The two readings of "keep the rest in original order" (R7, R97). -/
inductive ExtractOrder where
  | transmission  -- descending positions, first-sent first: the value HFC takes
  | reversed      -- ascending positions, last-sent first
  deriving DecidableEq, Repr

/-- The build-time parameters (R172: "fixed when the block is built, not programmed"). -/
structure Config where
  /-- `NMAX`, the number of cells of FB and of OB (R5). -/
  nmax : Nat
  /-- `EXTRACT_ORDER` (R7). -/
  extractOrder : ExtractOrder
  deriving DecidableEq, Repr

/-- The reference value of the test vectors, `NMAX = 4096` (R5), with `EXTRACT_ORDER = transmission`
(R7). DESIGN CHOICE (log 1): the spec leaves NMAX open; safe, since claims quantify over `Config`. -/
def Config.reference : Config := ⟨4096, .transmission⟩

/-- `SIZE`, the width of the Fletcher checksum field (R6). -/
abbrev checksumSize : Nat := 16

/-- `CHUNK`, the number of bits of one text chunk (R8). -/
abbrev chunkSize : Nat := 8

/-- `MOD`, the Fletcher modulus (R8). -/
abbrev fletcherModulus : Nat := 255

end Sys2Proof
end

