-- ==== Sys2Proof/Machine/Bits.lean ====
section
/-! DEFINITION. Bit strings and numbers (R9 to R11). A bit string is a list, index 0 first-sent and
most significant.
-/
namespace Sys2Proof.Machine

/-- `bit(s, i)` for `1 <= i <= |s|`: the bit at position i of the reversed view, `s[|s|-i]` (R10).
No command asks for another position (log 16). -/
def bitAt (s : List Bit) (i : Nat) : Bit := s.getD (s.length - i) false

/-- `val(s)`: the integer s spells, index 0 most significant (R11). -/
def val (s : List Bit) : Nat := s.foldl (fun v b => 2 * v + b.toNat) 0

/-- `bits_N(v)`: the N-bit string that spells v (R11). -/
def bitsOf : Nat → Nat → List Bit
  | 0, _ => []
  | n + 1, v => v.testBit n :: bitsOf n v

/-- `pow2(n)`: `n > 0 and (n & (n-1)) == 0` (R11). -/
def pow2 (n : Nat) : Bool := decide (0 < n) && decide (n &&& (n - 1) = 0)

/-- `ceil(m/8)`, computed as `(m + 7)` shifted right by 3 (R109). -/
def ceilChunks (m : Nat) : Nat := (m + 7) >>> 3

end Sys2Proof.Machine
end

