-- ==== Sys2Proof/Machine/FletcherSum.lean ====
section
/-! DEFINITION. The functions of the Fletcher-16 codec (R130 to R134). Single bits are summed (R130).
-/
namespace Sys2Proof.Machine

/-- One round of the accumulator (R130). -/
def fsumStep (acc : Nat × Nat) (b : Bit) : Nat × Nat :=
  let sum1 := (acc.1 + b.toNat) % fletcherModulus
  (sum1, (acc.2 + sum1) % fletcherModulus)

/-- `fsum(t) = (sum1, sum2)`, both starting at 0, index 0 first (R130). -/
def fsum (t : List Bit) : Nat × Nat := t.foldl fsumStep (0, 0)

/-- `fcs(t) = ((sum2 << 8) | sum1) & 0xFFFF` (R131). -/
def fcs (t : List Bit) : Nat :=
  (((fsum t).2 <<< (checksumSize / 2)) ||| (fsum t).1) &&& (1 <<< checksumSize - 1)

/-- `payload(s)`: all but the last 16 bits (R132). -/
def payload (s : List Bit) : List Bit := s.take (s.length - checksumSize)

/-- `received(s)`: the last 16 bits (R132). -/
def received (s : List Bit) : List Bit := s.drop (s.length - checksumSize)

/-- `fgen(t) = t ++ bits_16(fcs(t))` (R133). -/
def fletcherGen (t : List Bit) : List Bit := t ++ bitsOf checksumSize (fcs t)

end Sys2Proof.Machine
end

