-- ==== Sys2Proof/Syntax.lean ====
section
/-! DEFINITION. The eight commands of the opcode map (R64), one constructor per row of
spec/opcode_table.json.
-/
namespace Sys2Proof

/-- A command. The only explicit operand of the command set is PUSH's bit `b` (R63). -/
inductive Instr where
  | clr             -- CLR: empty the frame (R80)
  | push (b : Bit)  -- PUSH b: append one bit to the frame (R81)
  | pcnt            -- PCNT: parity-bit count (R101)
  | henc            -- HENC: Hamming encode (R102)
  | hdec            -- HDEC: Hamming decode (R103)
  | hdecx           -- HDECX: Hamming decode with payload extraction (R104)
  | fgen            -- FGEN: Fletcher generate (R135)
  | fver            -- FVER: Fletcher verify (R136)
  deriving DecidableEq, Repr

/-- The codec commands: PCNT, HENC, HDEC, HDECX, FGEN, FVER. The others, CLR and PUSH, are the frame
commands (glossary of spec/00_scope.md). -/
def Instr.isCodec : Instr → Bool
  | .clr => false
  | .push _ => false
  | .pcnt => true
  | .henc => true
  | .hdec => true
  | .hdecx => true
  | .fgen => true
  | .fver => true

end Sys2Proof
end

