-- ==== Sys2Proof/Machine/State.lean ====
section
/-! DEFINITION. The state of HFC (R20 to R37), what the host can do to it (R47, R170), the reasons a
step could stop, and the reset state (R37).
-/
namespace Sys2Proof.Machine

/-- The kind of the last result, STATUS.TAG: exactly ten values (R151, W4). -/
inductive Tag where
  | idle              -- 0, reset only
  | done              -- 1, PCNT, HENC, FGEN
  | noError           -- 2, HDEC, HDECX
  | corrected         -- 3, HDEC, HDECX
  | uncorrectable     -- 4, HDEC, HDECX
  | valid             -- 5, FVER
  | checksumMismatch  -- 6, FVER
  | invalidInput      -- 7, every codec command
  | illegalCommand    -- 8, any word that is no command
  | outputOverflow    -- 9, HENC, FGEN
  deriving DecidableEq, Repr

/-- The three address spaces (R40). -/
inductive Space where
  | reg  -- nine 32-bit registers
  | fb   -- the operand frame, one bit per cell
  | ob   -- the result bits, one bit per cell
  deriving DecidableEq, Repr

/-- What can happen to the block: the host's four kinds of access (R47) and the platform's reset
(R170). -/
inductive HostEvent where
  | write (index : Nat) (w : Word)      -- write of REG; index 0 is CMD (R42)
  | read (space : Space) (index : Nat)  -- read of REG, FB or OB (R41, R43, R44)
  | reset                               -- the platform resets the block (R170)
  deriving DecidableEq, Repr

/-- What a host read returns: a register whole, or one cell (R45). -/
inductive Reply where
  | word (w : Word)
  | cell (b : Bit)
  deriving DecidableEq, Repr

/-- The state. The fields from `cmd` to `ob` are the block's (R20); `cfg`, `pending` and `replies` are
the model's own (log 1, 6, 7). LEN and OLEN are the lengths of `fb` and `ob` (R12; log 4), and a cell
out of use is not stored (R37, W2; log 3). -/
structure State where
  /-- The build-time parameters; no step writes them (R172). -/
  cfg : Config
  /-- CMD: the last word the host wrote to REG 0 (R23). -/
  cmd : Word
  /-- STATUS.TAG (R33). -/
  tag : Tag
  /-- STATUS.FOVF, the sticky frame-overflow flag (R26). -/
  fovf : Bool
  /-- FB[0..LEN-1], FB[0] first-sent (R25). -/
  fb : List Bit
  /-- P: parity-bit count (R28). -/
  p : Word
  /-- SYND: syndrome (R29). -/
  synd : Word
  /-- POS: corrected position, or 0 (R30). -/
  pos : Word
  /-- CSUM[15:0]: SUM2 in 15:8, SUM1 in 7:0 (R31). -/
  csum : BitVec 16
  /-- RCSUM[15:0] (R32). -/
  rcsum : BitVec 16
  /-- OB[0..OLEN-1], OB[0] first-sent (R27). -/
  ob : List Bit
  /-- The events still to come, oldest first (R24, R179). -/
  pending : List HostEvent
  /-- What the host's reads returned, oldest first. -/
  replies : List Reply
  deriving DecidableEq, Repr

/-- HFC "raises no synchronous exception and takes no trap", and "No condition stops the block"
(R150), so no fault exists: nobody raises one, which is safe by R68. -/
inductive Fault
  deriving DecidableEq, Repr

/-- The one refusal the interface asks for. -/
inductive Refusal where
  /-- An instruction without a meaning in this model. Nobody raises it: every command has a meaning.
  It would be safe: a refusal claims nothing about the hardware. -/
  | notModelled (mnemonic : String)
  deriving DecidableEq, Repr

/-- The block after reset, built with parameters `cfg` (R37, R170). -/
def State.resetWith (cfg : Config) : State where
  cfg := cfg
  cmd := 0#32
  tag := .idle
  fovf := false
  fb := []
  p := 0#32
  synd := 0#32
  pos := 0#32
  csum := 0#16
  rcsum := 0#16
  ob := []
  pending := []
  replies := []

/-- The machine right after reset (R37), with the reference parameters (R5, R7; log 1). -/
def State.reset : State := State.resetWith Config.reference

end Sys2Proof.Machine
end

