-- ==== Sys2Proof/Machine/Flags.lean ====
section
/-! DEFINITION. STATUS: the codes of TAG (R151) and the flag FOVF (R26); the conditions that decide a
tag (R95, R153, R154).
-/
namespace Sys2Proof.Machine

/-- The 4-bit code of each tag (R151). -/
def Tag.code : Tag → BitVec 4
  | .idle => 0#4
  | .done => 1#4
  | .noError => 2#4
  | .corrected => 3#4
  | .uncorrectable => 4#4
  | .valid => 5#4
  | .checksumMismatch => 6#4
  | .invalidInput => 7#4
  | .illegalCommand => 8#4
  | .outputOverflow => 9#4

/-- STATUS as read: TAG in 3:0, FOVF in 4, zero in 31:5 (R20). -/
def statusWord (s : State) : Word := 0#27 ++ BitVec.ofBool s.fovf ++ s.tag.code

/-- FB has no free cell: the test of PUSH, `not (LEN < NMAX)` (R81). -/
def frameFull (s : State) : Bool := decide (¬ s.fb.length < s.cfg.nmax)

/-- R153 (a): the frame in FB lost a bit; asked by every codec command. -/
def frameOverflowed (s : State) : Bool := s.fovf

/-- R153 (a) or (b): `FOVF = 1 or LEN = 0`; asked by every codec command but PCNT. -/
def frameRejected (s : State) : Bool := s.fovf || s.fb.isEmpty

/-- R154: an output of n bits does not fit OB. -/
def outputTooLong (s : State) (n : Nat) : Bool := decide (n > s.cfg.nmax)

/-- The three outcomes of a Hamming decode (R95). -/
inductive Syndrome where
  | noError
  | corrected (position : Nat)
  | uncorrectable
  deriving DecidableEq, Repr

/-- `classify(S, n)`: `S = 0`, `0 < S < n`, `S >= n`, tested in this order (R95, R155). -/
def classify (S n : Nat) : Syndrome :=
  if S = 0 then .noError else if S < n then .corrected S else .uncorrectable

end Sys2Proof.Machine
end

