-- ==== Sys2Proof/Machine/Operands.lean ====
section
/-! DEFINITION. The operands (R63): the explicit one is PUSH's bit, decoded in Decode.lean; every other
operand is implicit, the frame `FB[0..LEN-1]`, its length LEN and the flag FOVF. And the values a
register of 32 bits takes from a number (R21).
-/
namespace Sys2Proof.Machine

/-- The frame, `FB[0..LEN-1]` (R25). -/
def State.frame (s : State) : List Bit := s.fb

/-- LEN, the number of bits of the frame (R25). -/
def State.len (s : State) : Nat := s.fb.length

/-- OLEN, the number of bits of the result (R27). -/
def State.olen (s : State) : Nat := s.ob.length

/-- A number as a 32-bit register holds it; none of HFC's numbers is truncated (R21). -/
def toWord (n : Nat) : Word := BitVec.ofNat 32 n

/-- A number as the 16-bit fields of CSUM and RCSUM hold it (R31, R32). -/
def toField (n : Nat) : BitVec 16 := BitVec.ofNat 16 n

/-- CSUM.SUM1, bits 7:0 (R31). -/
def State.sum1 (s : State) : BitVec 8 := s.csum.extractLsb' 0 8

/-- CSUM.SUM2, bits 15:8 (R31). -/
def State.sum2 (s : State) : BitVec 8 := s.csum.extractLsb' 8 8

end Sys2Proof.Machine
end

