-- ==== Sys2Proof/Machine/Ops.lean ====
section
/-! DEFINITION. The shared operations: writing a result (R12), the error result that stands where
another machine would take an exception (R150), the frame buffer (R80, R81), the host's reads (R41,
R43, R44), the illegal word (R152) and reset (R170). There is no return from an exception (R158).
-/
namespace Sys2Proof.Machine

/-- `REG.CMD <- w`, the first line of every command (R23). -/
def setCmd (w : Word) (s : State) : State := { s with cmd := w }

/-- `result(tag, p, synd, pos, csum, rcsum, out)`: writes every result register (R12, R36). -/
def result (tag : Tag) (p synd pos csum rcsum : Nat) (out : List Bit) (s : State) : State :=
  { s with
    tag := tag
    p := toWord p
    synd := toWord synd
    pos := toWord pos
    csum := toField csum
    rcsum := toField rcsum
    ob := out }

/-- `raise Tag`: short for `result(Tag, 0, 0, 0, 0, 0, "")`; no control transfer and no saved state
(R12, R150, R157). -/
def raiseTag (tag : Tag) (s : State) : State := result tag 0 0 0 0 0 [] s

/-- The frame is emptied and FOVF cleared (R80). -/
def clearFrame (s : State) : State := { s with fb := [], fovf := false }

/-- One bit is appended, or dropped with FOVF set when FB is full (R81). -/
def appendBit (b : Bit) (s : State) : State :=
  if frameFull s then { s with fovf := true } else { s with fb := s.fb ++ [b] }

/-- The effect of a word that is no command (R67, R152). -/
def takeIllegalWord (w : Word) (s : State) : State := raiseTag .illegalCommand (setCmd w s)

/-- `x[i]`, the host's read of REG (R41): the nine registers of R20, 0 for any other index. -/
def readReg (s : State) (i : Nat) : Word :=
  match i with
  | 0 => s.cmd
  | 1 => statusWord s
  | 2 => toWord s.len
  | 3 => toWord s.olen
  | 4 => s.p
  | 5 => s.synd
  | 6 => s.pos
  | 7 => s.csum.setWidth 32
  | 8 => s.rcsum.setWidth 32
  | _ => 0#32

/-- `MemRead(FB, k, 1)`: the cell when `k < LEN`, else 0 (R43). -/
def readFB (s : State) (k : Nat) : Bit := s.fb.getD k false

/-- `MemRead(OB, k, 1)`: the cell when `k < OLEN`, else 0 (R44). -/
def readOB (s : State) (k : Nat) : Bit := s.ob.getD k false

/-- What a host read of an address (space, index) returns (R40, R41, R43, R44). -/
def hostRead (s : State) (space : Space) (i : Nat) : Reply :=
  match space with
  | .reg => .word (readReg s i)
  | .fb => .cell (readFB s i)
  | .ob => .cell (readOB s i)

/-- The host receives a reply; the block does not change (R41, R44, R47). -/
def deliver (r : Reply) (s : State) : State := { s with replies := s.replies ++ [r] }

/-- The reset event: every piece of the block's state at its reset value (R170); the parameters, the
events to come and the replies given are not the block's and stay (log 9). -/
def takeReset (s : State) : State :=
  { State.resetWith s.cfg with pending := s.pending, replies := s.replies }

/-- Both buffers fit their NMAX cells (R20, R21): the form of the two bit memories. A list of the cells
in use has one form for each content, so equal buffers are equal lists. -/
def Memory.wf (s : State) : Bool :=
  decide (s.fb.length ≤ s.cfg.nmax) && decide (s.ob.length ≤ s.cfg.nmax)

end Sys2Proof.Machine
end

