-- ==== Sys2Proof/Machine/Fletcher.lean ====
section
/-! DEFINITION. The Fletcher commands FGEN and FVER (R135, R136).
-/
namespace Sys2Proof.Machine

/-- FGEN (R135): the frame with its checksum appended, when it fits OB (R154). -/
def execFgen (s : State) : Host.Outcome State Fault Refusal :=
  .next <|
    let s := setCmd 0x00000020#32 s
    if frameRejected s then raiseTag .invalidInput s
    else if outputTooLong s (s.len + checksumSize) then raiseTag .outputOverflow s
    else result .done 0 0 0 (fcs s.frame) 0 (fletcherGen s.frame) s

/-- FVER (R136): a frame shorter than the checksum field is a mismatch with both checksums 0; else the
comparator decides (R134). -/
def execFver (s : State) : Host.Outcome State Fault Refusal :=
  .next <|
    let s := setCmd 0x00000021#32 s
    if frameRejected s then raiseTag .invalidInput s
    else if s.len < checksumSize then result .checksumMismatch 0 0 0 0 0 [] s
    else
      let t := payload s.frame
      let rc := val (received s.frame)
      let c := fcs t
      if c = rc then result .valid 0 0 0 c rc t s
      else result .checksumMismatch 0 0 0 c rc [] s

end Sys2Proof.Machine
end

