-- ==== Sys2Proof/WellFormed.lean ====
section
/-! DEFINITION. What the spec asks of the parameters (R5) and of an instruction (R63).
-/
namespace Sys2Proof

/-- The constraints on the parameters: `32 <= NMAX <= 2^30` and NMAX a multiple of 8 (R5). -/
def Config.wf (c : Config) : Bool :=
  decide (32 ≤ c.nmax) && decide (c.nmax ≤ 2 ^ 30) && decide (c.nmax % 8 = 0)

/-- Every term of `Instr` is well-formed: the only operand is one bit "used as is" (R63), and any bit
is allowed. -/
def Instr.wf : Instr → Bool
  | .clr => true
  | .push _ => true
  | .pcnt => true
  | .henc => true
  | .hdec => true
  | .hdecx => true
  | .fgen => true
  | .fver => true

end Sys2Proof
end

