-- ==== Sys2Proof/Decode.lean ====
section
/-! DEFINITION. The decoder (R64), total on the 2^32 words and rejecting by name, and the encoder
written from the same formats (R61, R62).
-/
namespace Sys2Proof

/-- Why a word is no command, in the order R64 tests. The effect is the same for all (R67, R152). -/
inductive IllegalWord where
  | upperBitsSet                     -- `w[31:9] != 0`
  | operandBitSet                    -- `w[8:8] != 0` and the opcode is not PUSH's
  | unassignedOpcode (op : BitVec 8) -- no row of the table has this opcode
  deriving DecidableEq, Repr

/-- What the decoder answers. -/
inductive Decoded where
  | command (i : Instr)
  | illegal (why : IllegalWord)
  deriving DecidableEq, Repr

/-- The command, if there is one. -/
def Decoded.toOption : Decoded → Option Instr
  | .command i => some i
  | .illegal _ => none

/-- The opcode field `w[7:0]` (R61, R62). -/
def opcodeField (w : Word) : BitVec 8 := w.extractLsb' 0 8

/-- The operand bit `w[8:8]` of format B (R62, R63). -/
def operandBit (w : Word) : Bit := w.getLsbD 8

/-- The field that must be zero in every command, `w[31:9]` (R64). -/
def upperField (w : Word) : BitVec 23 := w.extractLsb' 9 23

/-- Step (4) of R64: the format-N row of an opcode. -/
def decodeFormatN (op : BitVec 8) : Decoded :=
  if op = 0x01#8 then .command .clr
  else if op = 0x10#8 then .command .pcnt
  else if op = 0x11#8 then .command .henc
  else if op = 0x12#8 then .command .hdec
  else if op = 0x13#8 then .command .hdecx
  else if op = 0x20#8 then .command .fgen
  else if op = 0x21#8 then .command .fver
  else .illegal (.unassignedOpcode op)

/-- The whole decoder, in every state (R64, R69). -/
def decode (w : Word) : Decoded :=
  if upperField w ≠ 0#23 then .illegal .upperBitsSet
  else if opcodeField w = 0x02#8 then .command (.push (operandBit w))
  else if operandBit w then .illegal .operandBitSet
  else decodeFormatN (opcodeField w)

/-- The opcode of each command (R64). -/
def Instr.opcode : Instr → BitVec 8
  | .clr => 0x01#8
  | .push _ => 0x02#8
  | .pcnt => 0x10#8
  | .henc => 0x11#8
  | .hdec => 0x12#8
  | .hdecx => 0x13#8
  | .fgen => 0x20#8
  | .fver => 0x21#8

/-- Format N: 24 zero bits and the opcode (R61). -/
def formatN (op : BitVec 8) : Word := 0#24 ++ op

/-- Format B: 23 zero bits, the operand bit, the opcode (R62). -/
def formatB (b : Bit) (op : BitVec 8) : Word := 0#23 ++ BitVec.ofBool b ++ op

/-- The word of a command (R61, R62, R64). -/
def encode (i : Instr) : Word :=
  match i with
  | .clr => formatN i.opcode
  | .push b => formatB b i.opcode
  | .pcnt => formatN i.opcode
  | .henc => formatN i.opcode
  | .hdec => formatN i.opcode
  | .hdecx => formatN i.opcode
  | .fgen => formatN i.opcode
  | .fver => formatN i.opcode

/-- One row of the opcode map: the word w is this command exactly when `(w & mask) = match` (R64). -/
structure OpcodeRow where
  mnemonic : String
  pattern  : Word
  mask     : Word
  deriving DecidableEq, Repr

/-- The opcode map of R64, row by row. -/
def opcodeRows : List OpcodeRow :=
  [ ⟨"CLR",   0x00000001#32, 0xFFFFFFFF#32⟩
  , ⟨"PUSH",  0x00000002#32, 0xFFFFFEFF#32⟩
  , ⟨"PCNT",  0x00000010#32, 0xFFFFFFFF#32⟩
  , ⟨"HENC",  0x00000011#32, 0xFFFFFFFF#32⟩
  , ⟨"HDEC",  0x00000012#32, 0xFFFFFFFF#32⟩
  , ⟨"HDECX", 0x00000013#32, 0xFFFFFFFF#32⟩
  , ⟨"FGEN",  0x00000020#32, 0xFFFFFFFF#32⟩
  , ⟨"FVER",  0x00000021#32, 0xFFFFFFFF#32⟩ ]

/-- Whether the word w is of this row (R64). -/
def OpcodeRow.covers (r : OpcodeRow) (w : Word) : Bool := (w &&& r.mask) == r.pattern

/-- "The complete set of legal words is therefore the nine values" of R64. -/
def legalWords : List Word :=
  [0x00000001#32, 0x00000002#32, 0x00000102#32, 0x00000010#32, 0x00000011#32, 0x00000012#32,
   0x00000013#32, 0x00000020#32, 0x00000021#32]

/-- The mnemonic of a command (R64). -/
def Instr.mnemonic : Instr → String
  | .clr => "CLR"
  | .push _ => "PUSH"
  | .pcnt => "PCNT"
  | .henc => "HENC"
  | .hdec => "HDEC"
  | .hdecx => "HDECX"
  | .fgen => "FGEN"
  | .fver => "FVER"

/-- The command read from the `nbits`-bit number `w`, bit 0 the least significant bit of the command
word; the bits above `nbits` are 0. A number with a bit at 32 or above is no 32-bit word (log 23). -/
def decodeTableWord (nbits w : Nat) : Option Instr :=
  if w % 2 ^ nbits < 2 ^ 32 then (decode (BitVec.ofNat 32 (w % 2 ^ nbits))).toOption else none

end Sys2Proof
end

