-- ==== Sys2Proof/Machine/Frame.lean ====
section
/-! DEFINITION. The frame commands CLR and PUSH (R80, R81).
-/
namespace Sys2Proof.Machine

/-- CLR (R80): CMD, LEN and FOVF are written, every result register keeps its value. -/
def execClr (s : State) : Host.Outcome State Fault Refusal :=
  .next (clearFrame (setCmd 0x00000001#32 s))

/-- PUSH b (R81): word 0x00000002 for b = 0, 0x00000102 for b = 1. -/
def execPush (b : Bit) (s : State) : Host.Outcome State Fault Refusal :=
  .next (appendBit b (setCmd (if b then 0x00000102#32 else 0x00000002#32) s))

end Sys2Proof.Machine
end

