-- ==== Sys2Proof/Machine/HammingCode.lean ====
section
/-! DEFINITION. The functions of the Hamming codec (R90 to R100). Numbers are `Nat`: "there is no
overflow and no wrap-around anywhere in the Hamming family" (R109).
-/
namespace Sys2Proof.Machine

/-- The loop of `pbc` from a candidate p, for at most `fuel` rounds (R90). -/
def pbcLoop (L : Nat) : (fuel p : Nat) → Nat
  | 0, p => p
  | fuel + 1, p => if 2 ^ p < L + p + 1 then pbcLoop L fuel (p + 1) else p

/-- `pbc(L)`, the smallest p with `2^p >= L + p + 1` (R90). L + 1 rounds are always enough (log 14). -/
def pbc (L : Nat) : Nat := pbcLoop L (L + 1) 0

/-- `npar(n) = floor(log2(n)) + 1`, the number of parity positions of a string of length n >= 1; 0 for
n = 0 (R92). -/
def npar (n : Nat) : Nat := if n = 0 then 0 else n.log2 + 1

/-- `ndata(n) = n - npar(n)`, the number of data positions (R92). -/
def ndata (n : Nat) : Nat := n - npar n

/-- `synd(s)`: the XOR of the positions that hold a 1 (R93, the form the spec calls equivalent to the
source's columns; log 13). The head of a string of length n is position n (R10). -/
def synd : List Bit → Nat
  | [] => 0
  | b :: s => (if b then s.length + 1 else 0) ^^^ synd s

/-- Column j of the source's procedure: the XOR of bit j of every position that holds a 1 (R93). -/
def syndColumn (s : List Bit) (j : Nat) : Bool :=
  (List.range s.length).foldl (fun c k => c ^^ (bitAt s (k + 1) && (k + 1).testBit j)) false

/-- The source's procedure: p columns, column j giving bit j (R93). -/
def syndFromColumns (s : List Bit) (p : Nat) : Nat :=
  ((List.range p).map fun j => (syndColumn s j).toNat * 2 ^ j).sum

/-- `flip(s, i)` for `1 <= i <= |s|`: the bit at position i inverted (R96). Another i changes nothing
(log 16). -/
def flipAt : List Bit → Nat → List Bit
  | [], _ => []
  | b :: s, i => if i = s.length + 1 then (!b) :: s else b :: flipAt s i

/-- The data positions of a string of length n, descending (R97). -/
def dposDescending : Nat → List Nat
  | 0 => []
  | n + 1 => if pow2 (n + 1) then dposDescending n else (n + 1) :: dposDescending n

/-- `dpos(n)`, the data positions in extraction order (R97). -/
def dpos (order : ExtractOrder) (n : Nat) : List Nat :=
  match order with
  | .transmission => dposDescending n
  | .reversed => (dposDescending n).reverse

/-- `strip(s) = [ bit(s, i) for i in dpos(|s|) ]` (R97). -/
def strip (order : ExtractOrder) (s : List Bit) : List Bit :=
  (dpos order s.length).map (bitAt s)

/-- `pad8(d)`: d followed by `8*ceil(m/8) - m` zero bits (R98). -/
def pad8 (d : List Bit) : List Bit :=
  d ++ List.replicate (chunkSize * ceilChunks d.length - d.length) false

/-- Chunk k of a text (R98). -/
def chunk (t : List Bit) (k : Nat) : List Bit := (t.drop (chunkSize * k)).take chunkSize

/-- The code points of a text, one for each whole chunk, lowest index most significant (R98). -/
def codePoints (t : List Bit) : List Nat :=
  (List.range (t.length / chunkSize)).map fun k => val (chunk t k)

/-- A string of length n with the bits d at its data positions in descending order and 0 at every
parity position: the c0 of R100 for `EXTRACT_ORDER = transmission`. -/
def placeDescending : Nat → List Bit → List Bit
  | 0, _ => []
  | n + 1, d =>
    if pow2 (n + 1) then false :: placeDescending n d
    else d.headD false :: placeDescending n d.tail

/-- The c0 of R100: the data bits at the data positions in extraction order. Ascending order places the
last data bit highest. -/
def placeData (order : ExtractOrder) (n : Nat) (d : List Bit) : List Bit :=
  match order with
  | .transmission => placeDescending n d
  | .reversed => placeDescending n d.reverse

/-- The bit at every parity position `2^j` set to `S0[j:j]` (R100). -/
def setParity (S0 : Nat) : List Bit → List Bit
  | [] => []
  | b :: s =>
    (if pow2 (s.length + 1) then S0.testBit (s.length + 1).log2 else b) :: setParity S0 s

/-- `encode(d)`: place the data, then set the parity bits from the syndrome of c0 (R100). -/
def hammingEncode (order : ExtractOrder) (d : List Bit) : List Bit :=
  let c0 := placeData order (d.length + pbc d.length) d
  setParity (synd c0) c0

end Sys2Proof.Machine
end

