-- ==== Sys2Proof/Machine/Hamming.lean ====
section
/-! DEFINITION. The Hamming commands PCNT, HENC, HDEC, HDECX (R101 to R104).
-/
namespace Sys2Proof.Machine

/-- PCNT (R101): accepts an empty frame, refuses an overflowed one. -/
def execPcnt (s : State) : Host.Outcome State Fault Refusal :=
  .next <|
    let s := setCmd 0x00000010#32 s
    if frameOverflowed s then raiseTag .invalidInput s
    else result .done (pbc s.len) 0 0 0 0 [] s

/-- HENC (R102): the codeword of the frame, when it fits OB (R154). -/
def execHenc (s : State) : Host.Outcome State Fault Refusal :=
  .next <|
    let s := setCmd 0x00000011#32 s
    let m := s.len
    let r := pbc m
    if frameRejected s then raiseTag .invalidInput s
    else if outputTooLong s (m + r) then raiseTag .outputOverflow s
    else result .done r 0 0 0 0 (hammingEncode s.cfg.extractOrder s.frame) s

/-- The decoder shared by HDEC and HDECX (R103, R104): they differ in what an error-free frame puts in
OB. -/
def hammingDecode (clean : List Bit) (s : State) : State :=
  let n := s.len
  let p := pbc n
  let S := synd s.frame
  match classify S n with
  | .noError => result .noError p 0 0 0 0 clean s
  | .corrected S => result .corrected p S S 0 0 (flipAt s.frame S) s
  | .uncorrectable => result .uncorrectable p S 0 0 0 [] s

/-- HDEC (R103): an error-free frame is returned as it is. -/
def execHdec (s : State) : Host.Outcome State Fault Refusal :=
  .next <|
    let s := setCmd 0x00000012#32 s
    if frameRejected s then raiseTag .invalidInput s
    else hammingDecode s.frame s

/-- HDECX (R104): an error-free frame gives its text bits, padded to whole chunks. -/
def execHdecx (s : State) : Host.Outcome State Fault Refusal :=
  .next <|
    let s := setCmd 0x00000013#32 s
    if frameRejected s then raiseTag .invalidInput s
    else hammingDecode (pad8 (strip s.cfg.extractOrder s.frame)) s

end Sys2Proof.Machine
end

