-- ==== Sys2Proof/Machine/Dispatch.lean ====
section
/-! DEFINITION. One arm per command (R64).
-/
namespace Sys2Proof.Machine

def exec (i : Instr) (s : State) : Host.Outcome State Fault Refusal :=
  match i with
  | .clr => Sys2Proof.Machine.execClr s
  | .push b => Sys2Proof.Machine.execPush b s
  | .pcnt => Sys2Proof.Machine.execPcnt s
  | .henc => Sys2Proof.Machine.execHenc s
  | .hdec => Sys2Proof.Machine.execHdec s
  | .hdecx => Sys2Proof.Machine.execHdecx s
  | .fgen => Sys2Proof.Machine.execFgen s
  | .fver => Sys2Proof.Machine.execFver s

end Sys2Proof.Machine
end

