-- ==== Sys2Proof/Machine/HostPort.lean ====
section
/-! DEFINITION. What one event does to the block (R23, R42, R47, R170). Each is one atomic step (R176).
-/
namespace Sys2Proof.Machine

/-- The host writes the word w to CMD: the command w spells runs, or the illegal-word result is taken
(R23, R64, R152). -/
def writeCmd (w : Word) (s : State) : Host.Outcome State Fault Refusal :=
  match decode w with
  | .command i => exec i s
  | .illegal _ => .next (takeIllegalWord w s)

/-- The host writes REG: index 0 is CMD, a write of any other index is ignored (R42). -/
def hostWrite (i : Nat) (w : Word) (s : State) : Host.Outcome State Fault Refusal :=
  if i = 0 then writeCmd w s else .next s

/-- One event, applied to the state it finds. -/
def applyEvent (e : HostEvent) (s : State) : Host.Outcome State Fault Refusal :=
  match e with
  | .write i w => hostWrite i w s
  | .read space i => .next (deliver (hostRead s space i) s)
  | .reset => .next (takeReset s)

/-- With no event to come the block is idle, "holding its state" (R162, R171; log 8). -/
def idle (s : State) : Host.Outcome State Fault Refusal := .next s

/-- The events a host produces that issues these command words in order (R24, R70). -/
def commandWrites (ws : List Word) : List HostEvent := ws.map (HostEvent.write 0)

/-- A word of `nbits` bits as the host writes it: the bits above `nbits` are 0 (log 23). -/
def tableWord (nbits w : Nat) : Word := BitVec.ofNat 32 (w % 2 ^ nbits)

end Sys2Proof.Machine
end

