-- ==== Sys2Proof/Machine/Step.lean ====
section
/-! DEFINITION. One step: the oldest event of `pending` takes effect (R48, R176, R179).
-/
namespace Sys2Proof.Machine

/-- The oldest event is taken from `pending` and applied; with none, the block is idle. -/
def step (s : State) : Host.Outcome State Fault Refusal :=
  match s.pending with
  | [] => idle s
  | e :: rest => applyEvent e { s with pending := rest }

/-- s with a host write of this word to CMD as its next event: HFC fetches nothing (R24), so this is
where the next command comes from (log 10). -/
def State.withFetchWord (s : State) (nbits w : Nat) : State :=
  { s with pending := HostEvent.write 0 (tableWord nbits w) :: s.pending }

end Sys2Proof.Machine
end

