-- ==== Sys2Proof/Machine/Assembler.lean ====
section
/-! DEFINITION. The assembler syntax of R70: commands, the pseudo-instructions LOAD and APPEND, the
directive WORD, comments. It is the host's notation, not the block's.
-/
namespace Sys2Proof.Machine

/-- One line of a listing. -/
inductive AsmLine where
  | empty                       -- nothing but a comment
  | command (i : Instr)
  | load (bits : List Bit)      -- CLR, then one PUSH per bit
  | append (bits : List Bit)    -- one PUSH per bit
  | word (w : Word)             -- exactly this word, legal or not
  deriving DecidableEq, Repr

/-- The words of `APPEND "<bits>"`: one PUSH per character, left to right (R70). -/
def appendWords (bits : List Bit) : List Word := bits.map fun b => encode (.push b)

/-- The words of `LOAD "<bits>"`: CLR and then the words of APPEND (R70). -/
def loadWords (bits : List Bit) : List Word := encode .clr :: appendWords bits

/-- The words one line assembles to (R70). -/
def AsmLine.words : AsmLine → List Word
  | .empty => []
  | .command i => [encode i]
  | .load bits => loadWords bits
  | .append bits => appendWords bits
  | .word w => [w]

/-- A program assembles to the words of its lines in the same order (R70). -/
def assemble (lines : List AsmLine) : List Word := lines.flatMap AsmLine.words

/-- "everything from `;` to the end of the line is a comment" (R70). -/
def withoutComment (line : List Char) : List Char := line.takeWhile (· != ';')

/-- The line without the spaces around it (log 17). -/
def trimmed (line : List Char) : List Char :=
  ((line.dropWhile (· == ' ')).reverse.dropWhile (· == ' ')).reverse

/-- A digit `0` or `1`. -/
def parseBit : Char → Option Bit
  | '0' => some false
  | '1' => some true
  | _ => none

/-- A run of the characters 0 and 1, closed by a double quote that ends the line. -/
def parseQuoted : List Char → Option (List Bit)
  | [] => none
  | ['"'] => some []
  | c :: rest => do
    let b ← parseBit c
    let bs ← parseQuoted rest
    return b :: bs

/-- A hexadecimal digit (log 17). -/
def parseHexDigit (c : Char) : Option Nat :=
  if '0' ≤ c ∧ c ≤ '9' then some (c.toNat - '0'.toNat)
  else if 'a' ≤ c ∧ c ≤ 'f' then some (c.toNat - 'a'.toNat + 10)
  else if 'A' ≤ c ∧ c ≤ 'F' then some (c.toNat - 'A'.toNat + 10)
  else none

/-- A run of hexadecimal digits, most significant first, after the value `v`. -/
def parseHex (v : Nat) : List Char → Option Nat
  | [] => some v
  | c :: rest => do
    let d ← parseHexDigit c
    parseHex (16 * v + d) rest

/-- Eight hexadecimal digits (R70). -/
def parseWord (digits : List Char) : Option Word :=
  if digits.length = 8 then (parseHex 0 digits).map (BitVec.ofNat 32) else none

/-- One line: "a mnemonic in capitals exactly as in rule R64; `PUSH` is followed by one space and the
digit `0` or `1`" (R70). -/
def parseLine (line : List Char) : Option AsmLine :=
  match trimmed (withoutComment line) with
  | [] => some .empty
  | ['C', 'L', 'R'] => some (.command .clr)
  | ['P', 'U', 'S', 'H', ' ', c] => (parseBit c).map fun b => .command (.push b)
  | ['P', 'C', 'N', 'T'] => some (.command .pcnt)
  | ['H', 'E', 'N', 'C'] => some (.command .henc)
  | ['H', 'D', 'E', 'C'] => some (.command .hdec)
  | ['H', 'D', 'E', 'C', 'X'] => some (.command .hdecx)
  | ['F', 'G', 'E', 'N'] => some (.command .fgen)
  | ['F', 'V', 'E', 'R'] => some (.command .fver)
  | 'L' :: 'O' :: 'A' :: 'D' :: ' ' :: '"' :: bits => (parseQuoted bits).map .load
  | 'A' :: 'P' :: 'P' :: 'E' :: 'N' :: 'D' :: ' ' :: '"' :: bits => (parseQuoted bits).map .append
  | 'W' :: 'O' :: 'R' :: 'D' :: ' ' :: '0' :: 'x' :: digits => (parseWord digits).map .word
  | _ => none

/-- The lines of a text: the first line so far, and the rest. -/
def splitLines : List Char → List (List Char)
  | [] => [[]]
  | c :: rest =>
    match splitLines rest with
    | [] => [[c]]
    | line :: lines => if c = '\n' then [] :: line :: lines else (c :: line) :: lines

/-- A text, one command per line, to its command words; none where a line is not of R70's syntax. -/
def assembleText (text : String) : Option (List Word) :=
  ((splitLines text.toList).mapM parseLine).map assemble

/-- The block at reset with parameters `cfg`, and a host that will issue these words (R24, R179). -/
def programmed (cfg : Config) (ws : List Word) : State :=
  { State.resetWith cfg with pending := commandWrites ws }

end Sys2Proof.Machine
end

