-- ==== Sys2Proof/Machine/Run.lean ====
section
/-! DEFINITION. A run: the events applied one at a time (R179).
-/
namespace Sys2Proof.Machine

/-- k steps. Nothing stops a run (R150), so the other two outcomes are only passed on. -/
def run : Nat → State → Host.Outcome State Fault Refusal
  | 0, s => .next s
  | k + 1, s =>
    match step s with
    | .next t => run k t
    | .fault r => .fault r
    | .refused r => .refused r

end Sys2Proof.Machine
end

