-- ==== Sys2Proof/Safety.lean ====
section
/-! DEFINITION. What a safe outcome is, and the invariant of the block (R20, R21, the table of
spec/10_state.md section 4).
-/
namespace Sys2Proof.Machine

/-- The block goes on: nothing stops it (R68, R150). -/
def GoesOn (o : Host.Outcome State Fault Refusal) : Prop := ∃ t, o = .next t

/-- The result registers P, SYND, POS, CSUM, RCSUM all hold 0 and OB is empty: the row of an error
result (R150) and of reset (R37). -/
def resultCleared (s : State) : Bool :=
  s.p == 0#32 && s.synd == 0#32 && s.pos == 0#32 && s.csum == 0#16 && s.rcsum == 0#16 && s.ob.isEmpty

/-- What the result registers hold for each tag: the table of spec/10_state.md section 4, with R30 and
R151. POS < LEN of R21 holds when the command runs; since CLR may follow (R174), what stays true is
POS < OLEN (log 15). -/
def resultRow (s : State) : Bool :=
  match s.tag with
  | .idle => resultCleared s
  | .done =>
    s.synd == 0#32 && s.pos == 0#32 && s.rcsum == 0#16 && (s.p == 0#32 || s.csum == 0#16)
  | .noError => s.synd == 0#32 && s.pos == 0#32 && s.csum == 0#16 && s.rcsum == 0#16
  | .corrected =>
    s.synd != 0#32 && s.pos == s.synd && decide (s.pos.toNat < s.ob.length) && s.csum == 0#16
      && s.rcsum == 0#16
  | .uncorrectable =>
    s.synd != 0#32 && s.pos == 0#32 && s.csum == 0#16 && s.rcsum == 0#16 && s.ob.isEmpty
  | .valid => s.p == 0#32 && s.synd == 0#32 && s.pos == 0#32 && s.rcsum == s.csum
  | .checksumMismatch => s.p == 0#32 && s.synd == 0#32 && s.pos == 0#32 && s.ob.isEmpty
  | .invalidInput => resultCleared s
  | .illegalCommand => resultCleared s
  | .outputOverflow => resultCleared s

/-- The bounds of R21 on the result registers: `P <= pbc(NMAX)`, `SYND < 2^P`, `SUM1 <= 254`,
`SUM2 <= 254`. -/
abbrev resultBounds (s : State) : Prop :=
  s.p.toNat ≤ pbc s.cfg.nmax ∧ s.synd.toNat < 2 ^ s.p.toNat ∧ s.sum1.toNat ≤ 254 ∧ s.sum2.toNat ≤ 254

/-- The invariant: the parameters meet R5, both buffers fit, an overflowed frame is full (R82), the
result registers meet R21 and the table of spec/10_state.md section 4. -/
abbrev State.Inv (s : State) : Prop :=
  s.cfg.wf = true ∧ Memory.wf s = true ∧ (s.fovf = true → s.fb.length = s.cfg.nmax) ∧
    resultBounds s ∧ resultRow s = true

end Sys2Proof.Machine
end

