-- ==== Sys2Proof/Certificates/Slice0/Obligations.lean ====
section
/-! DEFINITION. The statements for the provers. A next state is written out whole, field by field over
the state before, so each such statement is also its instruction's frame: every field not named keeps
its value, and the cells of FB and OB are the lists `fb` and `ob`.
-/

open Sys2Proof Sys2Proof.Machine

/-! ### Encoding -/

/-- R64's table, word by word. -/
def Obligations.LegalWordsDecode : Prop :=
  decode 0x00000001#32 = .command .clr ∧
  decode 0x00000002#32 = .command (.push false) ∧
  decode 0x00000102#32 = .command (.push true) ∧
  decode 0x00000010#32 = .command .pcnt ∧
  decode 0x00000011#32 = .command .henc ∧
  decode 0x00000012#32 = .command .hdec ∧
  decode 0x00000013#32 = .command .hdecx ∧
  decode 0x00000020#32 = .command .fgen ∧
  decode 0x00000021#32 = .command .fver

/-- R64 whole: the four tests in their order, on the word as a number; the table; the rows with mask and
match, of which no two match one word; the families in the high nibble; the nine legal words. -/
def Obligations.DecoderFollowsOpcodeMap : Prop :=
  (∀ w : Word,
    (w.toNat / 2 ^ 9 ≠ 0 → ∃ why, decode w = .illegal why) ∧
    (w.toNat / 2 ^ 9 = 0 → w.toNat % 256 = 0x02 →
      decode w = .command (.push (decide (w.toNat / 256 % 2 = 1)))) ∧
    (w.toNat / 2 ^ 9 = 0 → w.toNat % 256 ≠ 0x02 → w.toNat / 256 % 2 = 1 →
      ∃ why, decode w = .illegal why) ∧
    (w.toNat / 2 ^ 9 = 0 → w.toNat % 256 ≠ 0x02 → w.toNat / 256 % 2 = 0 →
      (∀ i, decode w = .command i ↔ (w.toNat % 256, i) ∈
        [(0x01, Instr.clr), (0x10, .pcnt), (0x11, .henc), (0x12, .hdec), (0x13, .hdecx),
         (0x20, .fgen), (0x21, .fver)]) ∧
      (w.toNat % 256 ∉ [0x01, 0x10, 0x11, 0x12, 0x13, 0x20, 0x21] →
        ∃ why, decode w = .illegal why))) ∧
  (∀ (w : Word) (name : String),
    (∃ i, decode w = .command i ∧ i.mnemonic = name) ↔
      ∃ r ∈ opcodeRows, r.mnemonic = name ∧ w &&& r.mask = r.pattern) ∧
  (∀ (w : Word), ∀ r ∈ opcodeRows, ∀ r' ∈ opcodeRows,
    w &&& r.mask = r.pattern → w &&& r'.mask = r'.pattern → r = r') ∧
  (∀ (w : Word) (i : Instr), decode w = .command i →
    w.toNat % 256 / 16 =
      if i.isCodec = false then 0 else if i = .fgen ∨ i = .fver then 2 else 1) ∧
  (∀ w : Word, (∃ i, decode w = .command i) ↔
    w ∈ [0x00000001#32, 0x00000002#32, 0x00000102#32, 0x00000010#32, 0x00000011#32, 0x00000012#32,
      0x00000013#32, 0x00000020#32, 0x00000021#32])

/-- Decode and encode agree both ways: no bit of a command word is dropped, and each command has one
word (spec/30_encoding.md sections 1 to 3). -/
def Obligations.DecodeEncodeInverse : Prop :=
  (∀ i : Instr, i.wf = true → decode (encode i) = .command i) ∧
  (∀ (w : Word) (i : Instr), decode w = .command i → encode i = w)

/-! ### The step and the host's accesses -/

/-- When the next event writes to CMD a word that decodes to i, the step is `exec i` on the state
without that event. The queue of events is the model's (log 6). -/
def Obligations.StepRunsDecodedCommand : Prop :=
  ∀ (s : State) (w : Word) (i : Instr) (rest : List HostEvent),
    s.pending = .write 0 w :: rest → decode w = .command i →
      step s = exec i { s with pending := rest }

/-- The word placed by `withFetchWord` is the one the next step runs, and `decodeTableWord` reads it
(log 10, 23: the model's interface, no rule of the spec). -/
def Obligations.PlacedWordRunsNext : Prop :=
  ∀ (i : Instr) (s : State),
    step (s.withFetchWord 32 (encode i).toNat) = exec i s ∧
    decodeTableWord 32 (encode i).toNat = some i

/-- With no event to come nothing happens (R171, R162; that the step is then the identity is log 8). -/
def Obligations.NothingRunsWithoutHost : Prop :=
  ∀ s : State, s.pending = [] → step s = .next s

/-- R152: a word that is none of the nine legal words takes the ILLEGAL_COMMAND result. -/
def Obligations.IllegalWordResult : Prop :=
  ∀ (s : State) (w : Word) (rest : List HostEvent),
    s.pending = .write 0 w :: rest →
    w ∉ [0x00000001#32, 0x00000002#32, 0x00000102#32, 0x00000010#32, 0x00000011#32, 0x00000012#32,
      0x00000013#32, 0x00000020#32, 0x00000021#32] →
    step s = .next { s with
      pending := rest, cmd := w, tag := .illegalCommand, p := 0#32, synd := 0#32, pos := 0#32,
      csum := 0#16, rcsum := 0#16, ob := [] }

/-- R41: what each register reads, laid out as in R20; 0 for any other index; the block does not change.
That the answer is kept in a list of replies is the model's choice (log 7). -/
def Obligations.HostReadsRegisters : Prop :=
  (∀ (s : State) (i : Nat) (rest : List HostEvent), s.pending = .read .reg i :: rest →
    step s = .next { s with pending := rest, replies := s.replies ++ [.word (readReg s i)] }) ∧
  ∀ s : State,
    readReg s 0 = s.cmd ∧
    (readReg s 1).toNat = s.tag.code.toNat + 16 * s.fovf.toNat ∧
    readReg s 2 = BitVec.ofNat 32 s.fb.length ∧
    readReg s 3 = BitVec.ofNat 32 s.ob.length ∧
    readReg s 4 = s.p ∧ readReg s 5 = s.synd ∧ readReg s 6 = s.pos ∧
    (readReg s 7).toNat = s.sum1.toNat + 256 * s.sum2.toNat ∧
    (readReg s 8).toNat = s.rcsum.toNat ∧
    ∀ i, 9 ≤ i → readReg s i = 0#32

/-- R43 and R44: a cell in use reads its bit, any other index reads 0; the block does not change. That the
answer is kept in a list of replies is the model's choice (log 7). -/
def Obligations.HostReadsBufferCells : Prop :=
  ∀ (s : State) (k : Nat) (rest : List HostEvent),
    (s.pending = .read .fb k :: rest →
      step s = .next { s with
        pending := rest
        replies := s.replies ++ [.cell (if h : k < s.fb.length then s.fb[k] else false)] }) ∧
    (s.pending = .read .ob k :: rest →
      step s = .next { s with
        pending := rest
        replies := s.replies ++ [.cell (if h : k < s.ob.length then s.ob[k] else false)] })

/-- R42: index 0 executes, any other index is ignored, and no other access changes the block. That a read
is kept in a list of replies is the model's choice (log 7). -/
def Obligations.OnlyCmdWritesChangeTheBlock : Prop :=
  ∀ (s : State) (rest : List HostEvent),
    (∀ (i : Nat) (w : Word), s.pending = .write i w :: rest → i ≠ 0 →
      step s = .next { s with pending := rest }) ∧
    (∀ w : Word, s.pending = .write 0 w :: rest →
      step s = match decode w with
        | .command i => exec i { s with pending := rest }
        | .illegal _ => .next (takeIllegalWord w { s with pending := rest })) ∧
    (∀ (space : Space) (i : Nat), s.pending = .read space i :: rest →
      ∃ r, step s = .next { s with pending := rest, replies := s.replies ++ [r] })

/-- R151: the ten codes, all different, so that codes 10 to 15 are never read. -/
def Obligations.TagCodes : Prop :=
  (Tag.idle.code = 0#4 ∧ Tag.done.code = 1#4 ∧ Tag.noError.code = 2#4 ∧ Tag.corrected.code = 3#4 ∧
    Tag.uncorrectable.code = 4#4 ∧ Tag.valid.code = 5#4 ∧ Tag.checksumMismatch.code = 6#4 ∧
    Tag.invalidInput.code = 7#4 ∧ Tag.illegalCommand.code = 8#4 ∧ Tag.outputOverflow.code = 9#4) ∧
  ∀ s : State, (readReg s 1).toNat % 16 < 10

/-! ### Reset -/

/-- R37: every register and every cell after reset, for every choice of the parameters; CLR then changes
CMD only, a codec command other than PCNT answers INVALID_INPUT, and no command produces IDLE. -/
def Obligations.ResetStateValues : Prop :=
  (∃ cfg : Config, State.reset = State.resetWith cfg) ∧
  (∀ cfg : Config, ∃ s, s = State.resetWith cfg ∧ s.cfg = cfg ∧
    s.cmd = 0#32 ∧ s.tag = .idle ∧ s.fovf = false ∧ s.len = 0 ∧ s.olen = 0 ∧ s.p = 0#32 ∧
    s.synd = 0#32 ∧ s.pos = 0#32 ∧ s.csum = 0#16 ∧ s.rcsum = 0#16 ∧
    (∀ i, readReg s i = 0#32) ∧ (∀ k, readFB s k = false) ∧ (∀ k, readOB s k = false) ∧
    exec .clr s = .next { s with cmd := 0x00000001#32 } ∧
    ∀ i : Instr, i.isCodec = true → i ≠ .pcnt → ∃ t, exec i s = .next t ∧ t.tag = .invalidInput) ∧
  ∀ (i : Instr) (s t : State), exec i s = .next t → t.tag = .idle →
    s.tag = .idle ∧ i.isCodec = false

/-- R170: a reset event puts every piece of the block's state at its reset value. That the parameters,
the events to come and the replies given stay is the model's choice (log 9). -/
def Obligations.ResetEventRestoresReset : Prop :=
  ∀ (s : State) (rest : List HostEvent), s.pending = .reset :: rest →
    step s = .next { State.resetWith s.cfg with pending := rest, replies := s.replies }

/-! ### Frame commands -/

/-- R80: CLR in every state; every FB cell then reads 0. -/
def Obligations.ClrEmptiesFrame : Prop :=
  encode .clr = 0x00000001#32 ∧
  ∀ s : State,
    exec .clr s = .next { s with cmd := 0x00000001#32, fb := [], fovf := false } ∧
    ∀ k, readFB { s with cmd := 0x00000001#32, fb := [], fovf := false } k = false

/-- R81: PUSH in every state. While a cell is free the bit is appended, it becomes position 1, every
other cell keeps its bit; when FB is full the bit is dropped and FOVF set. -/
def Obligations.PushAppendsOrOverflows : Prop :=
  encode (.push false) = 0x00000002#32 ∧ encode (.push true) = 0x00000102#32 ∧
  ∀ (b : Bit) (s : State),
    (s.fb.length < s.cfg.nmax →
      exec (.push b) s = .next { s with
        cmd := if b then 0x00000102#32 else 0x00000002#32, fb := s.fb ++ [b] } ∧
      readFB { s with fb := s.fb ++ [b] } s.fb.length = b ∧
      bitAt (s.fb ++ [b]) 1 = b ∧
      ∀ k, k ≠ s.fb.length → readFB { s with fb := s.fb ++ [b] } k = readFB s k) ∧
    (s.cfg.nmax ≤ s.fb.length →
      exec (.push b) s = .next { s with
        cmd := if b then 0x00000102#32 else 0x00000002#32, fovf := true })

/-- R82 over whole runs: CLR and then one PUSH per bit leaves the first NMAX bits in the frame, in order,
and FOVF exactly when a bit was dropped; PUSH alone appends. Nothing else changes but CMD. -/
def Obligations.LoadDeliversFrame : Prop :=
  ∀ (bits : List Bit) (s : State) (rest : List HostEvent),
    (s.pending = (HostEvent.write 0 0x00000001#32 ::
        bits.map fun b => .write 0 (if b then 0x00000102#32 else 0x00000002#32)) ++ rest →
      run (bits.length + 1) s = .next { s with
        pending := rest
        cmd := (bits.getLast?.map fun b => if b then 0x00000102#32 else 0x00000002#32).getD 0x00000001#32
        fb := bits.take s.cfg.nmax
        fovf := decide (s.cfg.nmax < bits.length) }) ∧
    (s.pending = (bits.map fun b =>
        HostEvent.write 0 (if b then 0x00000102#32 else 0x00000002#32)) ++ rest →
      s.fb.length ≤ s.cfg.nmax →
      run bits.length s = .next { s with
        pending := rest
        cmd := (bits.getLast?.map fun b => if b then 0x00000102#32 else 0x00000002#32).getD s.cmd
        fb := (s.fb ++ bits).take s.cfg.nmax
        fovf := s.fovf || decide (s.cfg.nmax < s.fb.length + bits.length) })

/-! ### Hamming functions -/

/-- R90: pbc is the least p with `2^p >= L + p + 1`; its table; 1 is never returned. -/
def Obligations.ParityBitCountIsLeast : Prop :=
  (∀ L, L + pbc L + 1 ≤ 2 ^ pbc L ∧ ∀ q, L + q + 1 ≤ 2 ^ q → pbc L ≤ q) ∧
  (∀ L, pbc L ≠ 1) ∧
  pbc 0 = 0 ∧ pbc 1 = 2 ∧ (∀ L, 2 ≤ L → L ≤ 4 → pbc L = 3) ∧ (∀ L, 5 ≤ L → L ≤ 11 → pbc L = 4) ∧
  (∀ L, 12 ≤ L → L ≤ 26 → pbc L = 5) ∧ (∀ L, 27 ≤ L → L ≤ 57 → pbc L = 6) ∧
  (∀ L, 58 ≤ L → L ≤ 120 → pbc L = 7) ∧ (∀ L, 121 ≤ L → L ≤ 247 → pbc L = 8) ∧
  (∀ L, 248 ≤ L → L ≤ 502 → pbc L = 9) ∧ (∀ L, 503 ≤ L → L ≤ 1013 → pbc L = 10) ∧
  pbc 4096 = 13 ∧ pbc 65535 = 17 ∧ pbc (2 ^ 30) = 31

/-- R91 and the closed form of R90, which the spec derives: monotone, every position has a pbc-bit number,
minimality. -/
def Obligations.ParityBitCountLaws : Prop :=
  (∀ L M, L ≤ M → pbc L ≤ pbc M) ∧
  (∀ L p, 2 ≤ p → (pbc L = p ↔ 2 ^ (p - 1) + 1 ≤ L + p ∧ L + p + 1 ≤ 2 ^ p)) ∧
  (∀ L i, i ≤ L → i < 2 ^ pbc L) ∧
  (∀ L, 1 ≤ L → 2 ^ (pbc L - 1) < L + pbc L)

/-- R92 and the layout lemma R99, which the spec derives. -/
def Obligations.CodewordLayout : Prop :=
  (∀ n, npar n = ((List.range n).filter fun k => pow2 (k + 1)).length) ∧
  (∀ n, pow2 n = true ↔ ∃ j, n = 2 ^ j) ∧
  ∀ m, 1 ≤ m →
    2 ≤ pbc m ∧ 2 ^ (pbc m - 1) < m + pbc m ∧ m + pbc m ≤ 2 ^ pbc m - 1 ∧
    (∀ i, 1 ≤ i → i ≤ m + pbc m → (pow2 i = true ↔ ∃ j < pbc m, i = 2 ^ j)) ∧
    npar (m + pbc m) = pbc m ∧ ndata (m + pbc m) = m ∧ pow2 (m + pbc m) = false

/-- R93: the machine's syndrome is the source's column procedure with `p = pbc(n)`: bit j is the parity
of the positions that hold a 1 and have bit j set. -/
def Obligations.SyndromeIsColumnProcedure : Prop :=
  ∀ s : List Bit, s ≠ [] →
    synd s = syndFromColumns s (pbc s.length) ∧
    ∀ j, j < pbc s.length → ((synd s).testBit j = true ↔
      ((List.range s.length).countP fun k => bitAt s (k + 1) && (k + 1).testBit j) % 2 = 1)

/-- R94 and the short form of R93, which the spec derives: the syndrome is the XOR of the positions that
hold a 1; its range; its linearity. -/
def Obligations.SyndromeRangeAndLinearity : Prop :=
  ∀ s : List Bit,
    synd s = (((List.range s.length).map (· + 1)).filter (bitAt s)).foldl (· ^^^ ·) 0 ∧
    synd s < 2 ^ npar s.length ∧ 2 ^ npar s.length ≤ 2 ^ pbc s.length ∧
    ∀ i, 1 ≤ i → i ≤ s.length → synd (flipAt s i) = synd s ^^^ i

/-- R96: the corrector inverts the bit at position i, index `|s| - i`, and nothing else; the frame it
corrects then has syndrome 0. -/
def Obligations.CorrectorFlipsOneBit : Prop :=
  ∀ s : List Bit,
    (∀ i, 1 ≤ i → i ≤ s.length →
      (flipAt s i).length = s.length ∧
      ∀ k, k < s.length → (flipAt s i).getD k false =
        if k = s.length - i then !(s.getD k false) else s.getD k false) ∧
    (0 < synd s → synd s < s.length → synd (flipAt s (synd s)) = 0)

/-- R97 and R98: stripping deletes the elements at the indexes `|s| - 2^j` and reorders nothing
(`reversed`: the reversal of that); padding fills the last chunk with zeros; a code point is the number
its 8 bits spell, lowest index most significant. -/
def Obligations.StripAndPad : Prop :=
  (∀ s : List Bit,
    strip .transmission s = ((List.range s.length).filter fun k => !pow2 (s.length - k)).map
      (fun k => s.getD k false) ∧
    strip .reversed s = (strip .transmission s).reverse ∧
    (strip .transmission s).length = ndata s.length) ∧
  ∀ d : List Bit,
    (pad8 d).length = 8 * ((d.length + 7) / 8) ∧ (pad8 d).take d.length = d ∧
    (∀ k, d.length ≤ k → (pad8 d).getD k false = false) ∧
    (codePoints (pad8 d)).length = (d.length + 7) / 8 ∧
    ∀ k, k < (d.length + 7) / 8 → (codePoints (pad8 d)).getD k 0 =
      ((List.range 8).map fun j => if (pad8 d).getD (8 * k + j) false then 2 ^ (7 - j) else 0).sum

/-! ### Hamming commands -/

/-- R101: PCNT. The count is given by its definition in R90, not by the model's function. -/
def Obligations.PcntResult : Prop :=
  encode .pcnt = 0x00000010#32 ∧
  ∀ s : State,
    (∀ p, s.fovf = false → s.fb.length + p + 1 ≤ 2 ^ p →
      (∀ q, q < p → 2 ^ q < s.fb.length + q + 1) →
      exec .pcnt s = .next { s with
        cmd := 0x00000010#32, tag := .done, p := BitVec.ofNat 32 p, synd := 0#32, pos := 0#32,
        csum := 0#16, rcsum := 0#16, ob := [] }) ∧
    (s.fovf = true → exec .pcnt s = .next { s with
        cmd := 0x00000010#32, tag := .invalidInput, p := 0#32, synd := 0#32, pos := 0#32,
        csum := 0#16, rcsum := 0#16, ob := [] })

/-- R102 with R100: HENC answers the one string of `m + pbc(m)` bits that carries the data at the data
positions and has syndrome 0; INVALID_INPUT and OUTPUT_OVERFLOW where the pseudocode says so. -/
def Obligations.HencYieldsTheCodeword : Prop :=
  encode .henc = 0x00000011#32 ∧
  ∀ s : State,
    (s.fovf = false → s.fb ≠ [] → s.fb.length + pbc s.fb.length ≤ s.cfg.nmax →
      ∃ c : List Bit,
        c.length = s.fb.length + pbc s.fb.length ∧ strip s.cfg.extractOrder c = s.fb ∧ synd c = 0 ∧
        (∀ c' : List Bit, c'.length = c.length → strip s.cfg.extractOrder c' = s.fb →
          synd c' = 0 → c' = c) ∧
        exec .henc s = .next { s with
          cmd := 0x00000011#32, tag := .done, p := BitVec.ofNat 32 (pbc s.fb.length), synd := 0#32,
          pos := 0#32, csum := 0#16, rcsum := 0#16, ob := c }) ∧
    (s.fovf = true ∨ s.fb = [] → exec .henc s = .next { s with
      cmd := 0x00000011#32, tag := .invalidInput, p := 0#32, synd := 0#32, pos := 0#32,
      csum := 0#16, rcsum := 0#16, ob := [] }) ∧
    (s.fovf = false → s.fb ≠ [] → s.cfg.nmax < s.fb.length + pbc s.fb.length →
      exec .henc s = .next { s with
        cmd := 0x00000011#32, tag := .outputOverflow, p := 0#32, synd := 0#32, pos := 0#32,
        csum := 0#16, rcsum := 0#16, ob := [] })

/-- R103: HDEC, every outcome, on any frame. -/
def Obligations.HdecResult : Prop :=
  encode .hdec = 0x00000012#32 ∧
  ∀ s : State,
    (s.fovf = false → s.fb ≠ [] →
      (synd s.fb = 0 → exec .hdec s = .next { s with
        cmd := 0x00000012#32, tag := .noError, p := BitVec.ofNat 32 (pbc s.fb.length), synd := 0#32,
        pos := 0#32, csum := 0#16, rcsum := 0#16, ob := s.fb }) ∧
      (0 < synd s.fb → synd s.fb < s.fb.length → exec .hdec s = .next { s with
        cmd := 0x00000012#32, tag := .corrected, p := BitVec.ofNat 32 (pbc s.fb.length),
        synd := BitVec.ofNat 32 (synd s.fb), pos := BitVec.ofNat 32 (synd s.fb), csum := 0#16,
        rcsum := 0#16, ob := flipAt s.fb (synd s.fb) }) ∧
      (s.fb.length ≤ synd s.fb → exec .hdec s = .next { s with
        cmd := 0x00000012#32, tag := .uncorrectable, p := BitVec.ofNat 32 (pbc s.fb.length),
        synd := BitVec.ofNat 32 (synd s.fb), pos := 0#32, csum := 0#16, rcsum := 0#16, ob := [] })) ∧
    (s.fovf = true ∨ s.fb = [] → exec .hdec s = .next { s with
      cmd := 0x00000012#32, tag := .invalidInput, p := 0#32, synd := 0#32, pos := 0#32,
      csum := 0#16, rcsum := 0#16, ob := [] })

/-- R104: HDECX differs from HDEC in the error-free outcome only, where OB holds the data bits padded to
whole chunks; they always fit. -/
def Obligations.HdecxResult : Prop :=
  encode .hdecx = 0x00000013#32 ∧
  ∀ s : State,
    (s.fovf = false → s.fb ≠ [] →
      (synd s.fb = 0 → ∃ text : List Bit,
        text = strip s.cfg.extractOrder s.fb ++ List.replicate
          (8 * ((ndata s.fb.length + 7) / 8) - ndata s.fb.length) false ∧
        text.length = 8 * ((ndata s.fb.length + 7) / 8) ∧
        (s.cfg.wf = true → s.fb.length ≤ s.cfg.nmax → text.length ≤ s.cfg.nmax) ∧
        exec .hdecx s = .next { s with
          cmd := 0x00000013#32, tag := .noError, p := BitVec.ofNat 32 (pbc s.fb.length),
          synd := 0#32, pos := 0#32, csum := 0#16, rcsum := 0#16, ob := text }) ∧
      (0 < synd s.fb → synd s.fb < s.fb.length → exec .hdecx s = .next { s with
        cmd := 0x00000013#32, tag := .corrected, p := BitVec.ofNat 32 (pbc s.fb.length),
        synd := BitVec.ofNat 32 (synd s.fb), pos := BitVec.ofNat 32 (synd s.fb), csum := 0#16,
        rcsum := 0#16, ob := flipAt s.fb (synd s.fb) }) ∧
      (s.fb.length ≤ synd s.fb → exec .hdecx s = .next { s with
        cmd := 0x00000013#32, tag := .uncorrectable, p := BitVec.ofNat 32 (pbc s.fb.length),
        synd := BitVec.ofNat 32 (synd s.fb), pos := 0#32, csum := 0#16, rcsum := 0#16, ob := [] })) ∧
    (s.fovf = true ∨ s.fb = [] → exec .hdecx s = .next { s with
      cmd := 0x00000013#32, tag := .invalidInput, p := 0#32, synd := 0#32, pos := 0#32,
      csum := 0#16, rcsum := 0#16, ob := [] })

/-- R105, which the spec derives: what HENC wrote, loaded unmodified, decodes as NO_ERROR; HDEC returns
it and HDECX returns the data, padded. -/
def Obligations.DecodeUndoesEncode : Prop :=
  ∀ s u : State,
    s.fovf = false → s.fb ≠ [] → s.fb.length + pbc s.fb.length ≤ s.cfg.nmax →
    u.cfg = s.cfg → u.fovf = false →
    ∃ t, exec .henc s = .next t ∧ t.tag = .done ∧ (u.fb = t.ob →
      (∃ v, exec .hdec u = .next v ∧ v.tag = .noError ∧ v.ob = t.ob) ∧
      (∃ v, exec .hdecx u = .next v ∧ v.tag = .noError ∧
        v.ob = s.fb ++ List.replicate (8 * ((s.fb.length + 7) / 8) - s.fb.length) false))

/-- R106, which the spec derives: one flipped bit is located and repaired, unless it is the first-sent
one. HDEC and HDECX alike. -/
def Obligations.SingleErrorIsLocated : Prop :=
  ∀ (s : State) (c : List Bit) (k : Nat) (i : Instr),
    i = .hdec ∨ i = .hdecx → s.cfg.wf = true → c.length ≤ s.cfg.nmax → s.fovf = false →
    synd c = 0 → 1 ≤ k → k ≤ c.length → s.fb = flipAt c k →
    ∃ t, exec i s = .next t ∧
      (k < c.length → t.tag = .corrected ∧ t.synd.toNat = k ∧ t.pos.toNat = k ∧ t.ob = c) ∧
      (k = c.length → t.tag = .uncorrectable ∧ t.synd.toNat = k ∧ t.pos = 0#32 ∧ t.ob = [])

/-- R107 and R108, which the spec derives: flips leave the XOR of their positions as syndrome, and the
three-way test decides on it alone, right or wrong; two flips are never NO_ERROR. -/
def Obligations.ManyErrorsAreClassified : Prop :=
  ∀ (s : State) (c : List Bit) (ks : List Nat) (i : Instr),
    i = .hdec ∨ i = .hdecx → s.cfg.wf = true → c.length ≤ s.cfg.nmax → s.fovf = false → c ≠ [] →
    synd c = 0 → (∀ k ∈ ks, 1 ≤ k ∧ k ≤ c.length) → s.fb = ks.foldl flipAt c →
    ∃ t, exec i s = .next t ∧ t.synd.toNat = ks.foldl (· ^^^ ·) 0 ∧
      (t.synd.toNat = 0 → t.tag = .noError) ∧
      (0 < t.synd.toNat → t.synd.toNat < c.length → t.tag = .corrected ∧ t.pos = t.synd ∧
        t.ob = flipAt s.fb t.synd.toNat) ∧
      (c.length ≤ t.synd.toNat → t.tag = .uncorrectable ∧ t.pos = 0#32 ∧ t.ob = []) ∧
      (∀ a b, ks = [a, b] → a ≠ b → t.tag ≠ .noError)

/-- R96, which the spec derives: a frame that HDEC corrected decodes as NO_ERROR when it is loaded and
decoded again. -/
def Obligations.CorrectedFrameDecodesClean : Prop :=
  ∀ s u : State, s.fovf = false → 0 < synd s.fb → synd s.fb < s.fb.length → u.fovf = false →
    ∃ t, exec .hdec s = .next t ∧ t.tag = .corrected ∧ (u.fb = t.ob →
      ∃ v, exec .hdec u = .next v ∧ v.tag = .noError ∧ v.ob = t.ob)

/-! ### Fletcher functions and commands -/

/-- R130: the loop, bit by bit from zero, and the bounds of the sums. -/
def Obligations.FletcherSums : Prop :=
  fsum [] = (0, 0) ∧
  ∀ (t : List Bit) (b : Bit),
    (fsum (t ++ [b])).1 = ((fsum t).1 + b.toNat) % 255 ∧
    (fsum (t ++ [b])).2 = ((fsum t).2 + (fsum (t ++ [b])).1) % 255 ∧
    (fsum t).1 ≤ 254 ∧ (fsum t).2 ≤ 254

/-- The closed form of R130 and what R131 says of the packed checksum, which the spec derives: the number
of ones and their weights, the two bytes, neither of them 0xFF, and the field as a bit string. -/
def Obligations.FletcherChecksumForm : Prop :=
  ∀ t : List Bit,
    (fsum t).1 = t.countP id % 255 ∧
    (fsum t).2 =
      ((List.range t.length).map fun k => if t.getD k false then t.length - k else 0).sum % 255 ∧
    fcs t < 2 ^ 16 ∧ fcs t % 256 = (fsum t).1 ∧ fcs t / 256 = (fsum t).2 ∧
    fcs t % 256 ≠ 255 ∧ fcs t / 256 ≠ 255 ∧
    bitsOf 16 (fcs t) = bitsOf 8 (fsum t).2 ++ bitsOf 8 (fsum t).1 ∧ val (bitsOf 16 (fcs t)) = fcs t

/-- R135: FGEN. The two sums are those of R130's loop and the appended field is given bit by bit, sum2
first, most significant bit first. -/
def Obligations.FgenAppendsChecksum : Prop :=
  encode .fgen = 0x00000020#32 ∧
  ∀ s : State,
    (∀ sum1 sum2 : Nat, s.fovf = false → s.fb ≠ [] → s.fb.length + 16 ≤ s.cfg.nmax →
      fsum s.fb = (sum1, sum2) →
      exec .fgen s = .next { s with
        cmd := 0x00000020#32, tag := .done, p := 0#32, synd := 0#32, pos := 0#32,
        csum := BitVec.ofNat 8 sum2 ++ BitVec.ofNat 8 sum1, rcsum := 0#16,
        ob := s.fb ++ ((List.range 8).map fun k => sum2.testBit (7 - k)) ++
          ((List.range 8).map fun k => sum1.testBit (7 - k)) }) ∧
    (s.fovf = true ∨ s.fb = [] → exec .fgen s = .next { s with
      cmd := 0x00000020#32, tag := .invalidInput, p := 0#32, synd := 0#32, pos := 0#32,
      csum := 0#16, rcsum := 0#16, ob := [] }) ∧
    (s.fovf = false → s.fb ≠ [] → s.cfg.nmax < s.fb.length + 16 → exec .fgen s = .next { s with
      cmd := 0x00000020#32, tag := .outputOverflow, p := 0#32, synd := 0#32, pos := 0#32,
      csum := 0#16, rcsum := 0#16, ob := [] })

/-- R136: FVER, every outcome. -/
def Obligations.FverResult : Prop :=
  encode .fver = 0x00000021#32 ∧
  ∀ s : State,
    (∀ (t f : List Bit), s.fovf = false → s.fb = t ++ f → f.length = 16 →
      (fcs t = val f → exec .fver s = .next { s with
        cmd := 0x00000021#32, tag := .valid, p := 0#32, synd := 0#32, pos := 0#32,
        csum := BitVec.ofNat 16 (fcs t), rcsum := BitVec.ofNat 16 (val f), ob := t }) ∧
      (fcs t ≠ val f → exec .fver s = .next { s with
        cmd := 0x00000021#32, tag := .checksumMismatch, p := 0#32, synd := 0#32, pos := 0#32,
        csum := BitVec.ofNat 16 (fcs t), rcsum := BitVec.ofNat 16 (val f), ob := [] })) ∧
    (s.fovf = false → s.fb ≠ [] → s.fb.length < 16 → exec .fver s = .next { s with
      cmd := 0x00000021#32, tag := .checksumMismatch, p := 0#32, synd := 0#32, pos := 0#32,
      csum := 0#16, rcsum := 0#16, ob := [] }) ∧
    (s.fovf = true ∨ s.fb = [] → exec .fver s = .next { s with
      cmd := 0x00000021#32, tag := .invalidInput, p := 0#32, synd := 0#32, pos := 0#32,
      csum := 0#16, rcsum := 0#16, ob := [] })

/-- R137, which the spec derives: the frame FGEN produced verifies, its payload comes back, and both
commands report one checksum. -/
def Obligations.FletcherRoundTrip : Prop :=
  ∀ s u : State,
    s.fovf = false → s.fb ≠ [] → s.fb.length + 16 ≤ s.cfg.nmax → u.fovf = false →
    ∃ t, exec .fgen s = .next t ∧ t.tag = .done ∧ (u.fb = t.ob →
      ∃ v, exec .fver u = .next v ∧ v.tag = .valid ∧ v.ob = s.fb ∧ v.csum = t.csum ∧
        v.rcsum = t.csum)

/-- R138, which the spec derives. Detected: any change of the checksum bits, and a single flipped payload
bit. Not detected: FVER answers VALID for any payload that has the checksum of another; payloads that agree
in both sums modulo 255 share one; 255 ones and every all-zero payload share the checksum 0. -/
def Obligations.FletcherDetection : Prop :=
  (∀ (s : State) (t f : List Bit), s.fovf = false → f.length = 16 → f ≠ bitsOf 16 (fcs t) →
    s.fb = t ++ f →
    ∃ u, exec .fver s = .next u ∧ u.tag = .checksumMismatch ∧ u.ob = []) ∧
  (∀ (s : State) (t : List Bit) (k : Nat) (hk : k < t.length), s.fovf = false →
    s.fb = t.set k (!t[k]) ++ bitsOf 16 (fcs t) →
    ∃ u, exec .fver s = .next u ∧ u.tag = .checksumMismatch ∧ u.ob = []) ∧
  (∀ (s : State) (t t' : List Bit), s.fovf = false → fcs t' = fcs t →
    s.fb = t' ++ bitsOf 16 (fcs t) →
    ∃ u, exec .fver s = .next u ∧ u.tag = .valid ∧ u.ob = t') ∧
  (∀ t t' : List Bit, t'.countP id % 255 = t.countP id % 255 →
    ((List.range t'.length).map fun k => if t'.getD k false then t'.length - k else 0).sum % 255 =
      ((List.range t.length).map fun k => if t.getD k false then t.length - k else 0).sum % 255 →
    fcs t' = fcs t) ∧
  fcs (List.replicate 255 true) = 0 ∧ (∀ n, fcs (List.replicate n false) = 0) ∧
  ∀ (s : State) (t : List Bit), s.fovf = false →
    t = List.replicate 255 true ∨ (∃ n, t = List.replicate n false) →
    s.fb = t ++ List.replicate 16 false →
    ∃ u, exec .fver s = .next u ∧ u.tag = .valid ∧ u.ob = t

/-! ### Error results and their priority -/

/-- R153: every codec command answers INVALID_INPUT when FOVF is set, and all but PCNT when the frame is
empty; nothing is computed; and no codec command answers it otherwise. -/
def Obligations.InvalidInputExactly : Prop :=
  ∀ (i : Instr) (s : State), i.isCodec = true →
    (s.fovf = true ∨ (s.fb = [] ∧ i ≠ .pcnt) →
      exec i s = .next { s with
        cmd := encode i, tag := .invalidInput, p := 0#32, synd := 0#32, pos := 0#32,
        csum := 0#16, rcsum := 0#16, ob := [] }) ∧
    (∀ t, exec i s = .next t → t.tag = .invalidInput →
      s.fovf = true ∨ (s.fb = [] ∧ i ≠ .pcnt))

/-- R154: HENC and FGEN answer OUTPUT_OVERFLOW when their output would not fit OB, computing nothing, and
no codec command answers it otherwise. -/
def Obligations.OutputOverflowExactly : Prop :=
  ∀ (i : Instr) (s : State), i.isCodec = true → s.fovf = false → s.fb ≠ [] →
    ((i = .henc ∧ s.fb.length + pbc s.fb.length > s.cfg.nmax) ∨
        (i = .fgen ∧ s.fb.length + 16 > s.cfg.nmax) →
      exec i s = .next { s with
        cmd := encode i, tag := .outputOverflow, p := 0#32, synd := 0#32, pos := 0#32,
        csum := 0#16, rcsum := 0#16, ob := [] }) ∧
    (∀ t, exec i s = .next t → t.tag = .outputOverflow →
      (i = .henc ∧ s.fb.length + pbc s.fb.length > s.cfg.nmax) ∨
        (i = .fgen ∧ s.fb.length + 16 > s.cfg.nmax))

/-- R155: the tag after any write of CMD, by the fixed order of tests. -/
def Obligations.TagPriority : Prop :=
  ∀ (s : State) (w : Word) (rest : List HostEvent), s.pending = .write 0 w :: rest →
    ∃ t, step s = .next t ∧ t.tag =
      if w ∉ [0x00000001#32, 0x00000002#32, 0x00000102#32, 0x00000010#32, 0x00000011#32,
          0x00000012#32, 0x00000013#32, 0x00000020#32, 0x00000021#32] then .illegalCommand
      else if w ∈ [0x00000001#32, 0x00000002#32, 0x00000102#32] then s.tag
      else if s.fovf = true then .invalidInput
      else if s.fb = [] ∧ w ≠ 0x00000010#32 then .invalidInput
      else if (w = 0x00000011#32 ∧ s.fb.length + pbc s.fb.length > s.cfg.nmax) ∨
          (w = 0x00000020#32 ∧ s.fb.length + 16 > s.cfg.nmax) then .outputOverflow
      else if w ∈ [0x00000010#32, 0x00000011#32, 0x00000020#32] then .done
      else if w ∈ [0x00000012#32, 0x00000013#32] then
        if synd s.fb = 0 then .noError
        else if synd s.fb < s.fb.length then .corrected
        else .uncorrectable
      else if s.fb.length < 16 then .checksumMismatch
      else if fcs (s.fb.take (s.fb.length - 16)) = val (s.fb.drop (s.fb.length - 16)) then .valid
      else .checksumMismatch

/-! ### The whole machine -/

/-- R68 and R150: every word in every state has an effect and nothing stops the block; a write of CMD
leaves its word in CMD (R23). -/
def Obligations.NothingStopsTheBlock : Prop :=
  (∀ s : State, GoesOn (step s)) ∧
  (∀ (i : Instr) (s : State), GoesOn (exec i s)) ∧
  ∀ (s : State) (w : Word) (rest : List HostEvent), s.pending = .write 0 w :: rest →
    ∃ t, step s = .next t ∧ t.cmd = w ∧ t.pending = rest

/-- The invariant holds after reset, for every choice of the parameters that R5 allows. -/
def Obligations.ResetMeetsInvariant : Prop :=
  State.reset.Inv ∧ ∀ cfg : Config, cfg.wf = true → (State.resetWith cfg).Inv

/-- Every step keeps the invariant: the buffers fit, an overflowed frame is full, the result registers
meet R21 and the table of spec/10_state.md section 4 (with log 15 for POS). -/
def Obligations.StepKeepsInvariant : Prop :=
  ∀ s t : State, s.Inv → step s = .next t → t.Inv

/-- R36, which the spec derives: the results of a codec command depend on the command, the frame and FOVF
alone; the frame state after a frame command depends on the frame state before and the command alone. -/
def Obligations.ResultsDependOnFrameOnly : Prop :=
  ∀ (i : Instr) (s s' : State), s.cfg = s'.cfg → s.fb = s'.fb → s.fovf = s'.fovf →
    ∃ t t', exec i s = .next t ∧ exec i s' = .next t' ∧ t.cmd = t'.cmd ∧
      (i.isCodec = true → t.tag = t'.tag ∧ t.p = t'.p ∧ t.synd = t'.synd ∧ t.pos = t'.pos ∧
        t.csum = t'.csum ∧ t.rcsum = t'.rcsum ∧ t.ob = t'.ob) ∧
      t.fb = t'.fb ∧ t.fovf = t'.fovf

/-- R25, R26, R33, R174, as one rule of the whole machine: who may change the frame, who may set and
clear FOVF, who may change a result; nobody changes the parameters. -/
def Obligations.WhoWritesWhat : Prop :=
  ∀ (s t : State) (e : HostEvent) (rest : List HostEvent), s.pending = e :: rest → step s = .next t →
    (t.fb ≠ s.fb → e = .reset ∨ e = .write 0 0x00000001#32 ∨ e = .write 0 0x00000002#32 ∨
      e = .write 0 0x00000102#32) ∧
    (s.fovf = true → t.fovf = false → e = .reset ∨ e = .write 0 0x00000001#32) ∧
    (s.fovf = false → t.fovf = true →
      (e = .write 0 0x00000002#32 ∨ e = .write 0 0x00000102#32) ∧ s.cfg.nmax ≤ s.fb.length) ∧
    ((t.tag, t.p, t.synd, t.pos, t.csum, t.rcsum, t.ob) ≠
        (s.tag, s.p, s.synd, s.pos, s.csum, s.rcsum, s.ob) →
      e = .reset ∨ ∃ w, e = .write 0 w ∧ w ∉ [0x00000001#32, 0x00000002#32, 0x00000102#32]) ∧
    t.cfg = s.cfg ∧ t.pending = rest

/-- R151: "the only way TAG is ever IDLE" is reset. -/
def Obligations.IdleOnlyFromReset : Prop :=
  ∀ s t : State, step s = .next t → t.tag = .idle →
    s.tag = .idle ∨ ∃ rest, s.pending = .reset :: rest

/-- R21, which the spec derives: under the invariant LEN and OLEN read as the lengths of the buffers,
before and after any command, and every number that a codec command puts in P, SYND, POS, CSUM or RCSUM
reads back as the number computed. -/
def Obligations.RegistersHoldTheirNumbers : Prop :=
  ∀ s : State, s.Inv →
    (readReg s 2).toNat = s.fb.length ∧ (readReg s 3).toNat = s.ob.length ∧
    s.p.toNat ≤ 31 ∧ s.synd.toNat < 2 ^ 31 ∧
    (∀ (i : Instr) (t : State), exec i s = .next t →
      (readReg t 2).toNat = t.fb.length ∧ (readReg t 3).toNat = t.ob.length) ∧
    (s.fovf = false → ∃ t, exec .pcnt s = .next t ∧ t.p.toNat = pbc s.fb.length) ∧
    (s.fovf = false → s.fb ≠ [] → s.fb.length + pbc s.fb.length ≤ s.cfg.nmax →
      ∃ t, exec .henc s = .next t ∧ t.p.toNat = pbc s.fb.length) ∧
    (∀ i : Instr, i = .hdec ∨ i = .hdecx → s.fovf = false → s.fb ≠ [] →
      ∃ t, exec i s = .next t ∧ t.p.toNat = pbc s.fb.length ∧ t.synd.toNat = synd s.fb ∧
        t.pos.toNat = (if t.tag = .corrected then synd s.fb else 0) ∧
        t.pos.toNat < s.fb.length) ∧
    (s.fovf = false → s.fb ≠ [] → s.fb.length + 16 ≤ s.cfg.nmax →
      ∃ t, exec .fgen s = .next t ∧ t.csum.toNat = fcs s.fb) ∧
    (s.fovf = false → 16 ≤ s.fb.length → ∃ t, exec .fver s = .next t ∧
      t.csum.toNat = fcs (s.fb.take (s.fb.length - 16)) ∧
      t.rcsum.toNat = val (s.fb.drop (s.fb.length - 16)))

/-! ### The assembler syntax -/

/-- R70: what LOAD, APPEND, WORD and a program assemble to, and the rule's example as text. -/
def Obligations.AssemblerExpansions : Prop :=
  (∀ bits : List Bit,
    assemble [.load bits] = 0x00000001#32 :: bits.map (fun b =>
      if b then 0x00000102#32 else 0x00000002#32) ∧
    assemble [.append bits] = bits.map (fun b => if b then 0x00000102#32 else 0x00000002#32)) ∧
  (∀ w : Word, assemble [.word w] = [w]) ∧
  (∀ i : Instr, assemble [.command i] = [encode i]) ∧
  (∀ p q : List AsmLine, assemble (p ++ q) = assemble p ++ assemble q) ∧
  assembleText "LOAD \"10\"" = some [0x00000001#32, 0x00000102#32, 0x00000002#32]

/-! ### Choices of the model -/

/-- The name a word that is no command carries: the first test of R64 that rejects it. The names are the
model's choice (log 24); the spec gives all such words one effect. -/
def Obligations.IllegalWordNames : Prop :=
  ∀ w : Word,
    (w.toNat / 2 ^ 9 ≠ 0 → decode w = .illegal .upperBitsSet) ∧
    (w.toNat / 2 ^ 9 = 0 → w.toNat % 256 ≠ 0x02 → w.toNat / 256 % 2 = 1 →
      decode w = .illegal .operandBitSet) ∧
    (w.toNat / 2 ^ 9 = 0 → w.toNat / 256 % 2 = 0 →
      w.toNat % 256 ∉ [0x01, 0x02, 0x10, 0x11, 0x12, 0x13, 0x20, 0x21] →
      decode w = .illegal (.unassignedOpcode (BitVec.ofNat 8 w.toNat)))
end

