-- ==== Sys2Proof/Laws/Bits.lean ====
section
/-! SUPPORT. Bit strings and numbers: the laws of `pow2`, `ceilChunks`, `val`, `bitsOf`, `bitAt`.
-/
namespace Sys2Proof.Machine

/-- `pow2` says exactly that its argument is a power of two (R11, R92). -/
theorem pow2_iff (n : Nat) : pow2 n = true ↔ ∃ j, n = 2 ^ j := by
  simp only [pow2, Bool.and_eq_true, decide_eq_true_eq]
  constructor
  · rintro ⟨hpos, hand⟩
    refine ⟨n.log2, ?_⟩
    have hlo : 2 ^ n.log2 ≤ n := Nat.log2_self_le (by omega)
    have hhi : n < 2 ^ (n.log2 + 1) := Nat.lt_log2_self
    by_contra hne
    have h1 : n.testBit n.log2 = true := Nat.testBit_of_two_pow_le_and_two_pow_add_one_gt hlo hhi
    have h2 : (n - 1).testBit n.log2 = true :=
      Nat.testBit_of_two_pow_le_and_two_pow_add_one_gt (by omega) (by omega)
    have := congrArg (·.testBit n.log2) hand
    simp [Nat.testBit_and, h1, h2] at this
  · rintro ⟨j, rfl⟩
    refine ⟨Nat.two_pow_pos j, Nat.eq_of_testBit_eq fun i => ?_⟩
    simp only [Nat.testBit_and, Nat.testBit_two_pow, Nat.testBit_two_pow_sub_one,
      Nat.zero_testBit, Bool.and_eq_false_iff, decide_eq_false_iff_not]
    omega

theorem pow2_two_pow (j : Nat) : pow2 (2 ^ j) = true := (pow2_iff _).2 ⟨j, rfl⟩

/-- `ceil(m/8)` in the usual form (R109). -/
theorem ceilChunks_eq (m : Nat) : ceilChunks m = (m + 7) / 8 := by
  simp [ceilChunks, Nat.shiftRight_eq_div_pow]

@[simp] theorem length_bitsOf (n v : Nat) : (bitsOf n v).length = n := by
  induction n with
  | zero => rfl
  | succ n ih => simp [bitsOf, ih]

theorem val_append (s t : List Bit) : val (s ++ t) = val s * 2 ^ t.length + val t := by
  have h : ∀ (t : List Bit) (v : Nat),
      t.foldl (fun v b => 2 * v + b.toNat) v = v * 2 ^ t.length + val t := by
    intro t
    induction t with
    | nil => simp [val]
    | cons b t ih =>
      intro v
      simp only [List.foldl_cons, val, List.length_cons]
      rw [ih, ih (2 * 0 + b.toNat), pow_succ]
      ring
  rw [val, List.foldl_append, h]
  rfl

theorem val_cons (b : Bit) (t : List Bit) : val (b :: t) = b.toNat * 2 ^ t.length + val t := by
  have := val_append [b] t
  simpa [val] using this

theorem val_lt (s : List Bit) : val s < 2 ^ s.length := by
  induction s with
  | nil => simp [val]
  | cons b s ih =>
    rw [val_cons, List.length_cons, pow_succ]
    cases b <;> simp <;> omega

/-- `bits_N(v)` spells v (R11). -/
theorem val_bitsOf (n v : Nat) : val (bitsOf n v) = v % 2 ^ n := by
  induction n with
  | zero => simp [bitsOf, val, Nat.mod_one]
  | succ n ih =>
    rw [bitsOf, val_cons, length_bitsOf, ih, Nat.mod_pow_succ, Nat.toNat_testBit]
    ring

/-- The N-bit string that spells `val(t)` is t (R11). -/
theorem bitsOf_val (t : List Bit) : bitsOf t.length (val t) = t := by
  have h : ∀ (n v w : Nat), v % 2 ^ n = w % 2 ^ n → bitsOf n v = bitsOf n w := by
    intro n
    induction n with
    | zero => intros; rfl
    | succ n ih =>
      intro v w hvw
      have hbit : v.testBit n = w.testBit n := by
        have := congrArg (·.testBit n) hvw
        simpa [Nat.testBit_mod_two_pow] using this
      have hlow : v % 2 ^ n = w % 2 ^ n := by
        have := congrArg (· % 2 ^ n) hvw
        simpa [Nat.mod_mod_of_dvd, pow_dvd_pow] using this
      simp [bitsOf, hbit, ih v w hlow]
  induction t with
  | nil => rfl
  | cons b t ih =>
    have hlt := val_lt t
    rw [List.length_cons, bitsOf, val_cons]
    congr 1
    · cases b <;> simp [Nat.testBit_lt_two_pow, hlt, Nat.testBit_two_pow_add_eq]
    · exact (h t.length _ (val t) (by simp [Nat.add_mod])).trans ih

/-- Strings of one length are equal exactly when they spell the same number (R134). -/
theorem val_inj {s t : List Bit} (hlen : s.length = t.length) (hval : val s = val t) : s = t := by
  rw [← bitsOf_val s, ← bitsOf_val t, hlen, hval]

/-- The head of a string is its highest position (R10). -/
theorem bitAt_cons_self (b : Bit) (s : List Bit) : bitAt (b :: s) (s.length + 1) = b := by
  simp [bitAt]

/-- The other positions are those of the tail (R10). -/
theorem bitAt_cons_of_le (b : Bit) {s : List Bit} {i : Nat} (h : i ≤ s.length) :
    bitAt (b :: s) i = bitAt s i := by
  simp only [bitAt, List.length_cons]
  rw [show s.length + 1 - i = (s.length - i) + 1 by omega, List.getD_cons_succ]

end Sys2Proof.Machine
end

