-- ==== Sys2Proof/Laws/Decode.lean ====
section
/-! SUPPORT. The fields of a command word, and the decoder in terms of them (R61 to R64).
-/
namespace Sys2Proof

/-- A word is its three fields, in format B's order (R62). -/
theorem word_eq_fields (w : Word) :
    w = upperField w ++ BitVec.ofBool (operandBit w) ++ opcodeField w := by
  apply BitVec.eq_of_getLsbD_eq
  intro i hi
  simp only [upperField, operandBit, opcodeField, BitVec.getLsbD_append, BitVec.getLsbD_extractLsb',
    BitVec.getLsbD_ofBool]
  rcases Nat.lt_or_ge i 8 with h | h
  · simp [h]
  · rcases Nat.lt_or_ge i 9 with h' | h'
    · obtain rfl : i = 8 := by omega
      simp
    · have h8 : ¬ i < 8 := by omega
      have h1 : ¬ i - 8 < 1 := by omega
      have h2 : i - 8 - 1 < 23 := by omega
      simp only [h8, h1, h2, if_false, decide_true, Bool.true_and, decide_false]
      congr 1
      omega

theorem toNat_upperField (w : Word) : (upperField w).toNat = w.toNat / 2 ^ 9 := by
  have := w.isLt
  simp only [upperField, BitVec.extractLsb'_toNat, Nat.shiftRight_eq_div_pow]
  omega

theorem toNat_opcodeField (w : Word) : (opcodeField w).toNat = w.toNat % 256 := by
  simp [opcodeField, BitVec.extractLsb'_toNat]

theorem operandBit_eq (w : Word) : operandBit w = decide (w.toNat / 256 % 2 = 1) := by
  simp [operandBit, BitVec.getLsbD, Nat.testBit_eq_decide_div_mod_eq]

/-- Test (1) of R64. -/
theorem decode_of_upperField_ne {w : Word} (h : upperField w ≠ 0#23) :
    decode w = .illegal .upperBitsSet := by
  simp [decode, h]

/-- Tests (2) to (4) of R64, when the upper field is zero. -/
theorem decode_of_upperField_eq {w : Word} (h : upperField w = 0#23) :
    decode w = if opcodeField w = 0x02#8 then .command (.push (operandBit w))
      else if operandBit w then .illegal .operandBitSet else decodeFormatN (opcodeField w) := by
  simp [decode, h]

/-- A format-N row is decoded from its own opcode only (R64). -/
theorem decodeFormatN_eq_command {op : BitVec 8} {i : Instr} (h : decodeFormatN op = .command i) :
    op = i.opcode ∧ ∀ b, i ≠ .push b := by
  unfold decodeFormatN at h
  repeat' split at h
  all_goals first
    | (simp only [Decoded.command.injEq] at h; subst h; exact ⟨by assumption, by intro b; simp⟩)
    | simp at h

end Sys2Proof
end

