-- ==== Sys2Proof/Laws/Fletcher.lean ====
section
/-! SUPPORT. The laws of the Fletcher codec's functions: the sums (R130, R139), the packer (R131), the
splitter and the generator (R132, R133).
-/
namespace Sys2Proof.Machine

/-- Both sums after the whole string, from any start (R130, closed form). -/
theorem foldl_fsumStep (t : List Bit) : ∀ a b : Nat, t.foldl fsumStep (a % 255, b % 255)
    = ((a + t.countP id) % 255,
       (b + t.length * a + ((List.range t.length).map fun k =>
          if t.getD k false then t.length - k else 0).sum) % 255) := by
  induction t with
  | nil => simp
  | cons c t ih =>
    intro a b
    have h1 : fsumStep (a % 255, b % 255) c
        = ((a + c.toNat) % 255, (b + (a + c.toNat)) % 255) := by
      simp [fsumStep, Nat.add_mod]
    rw [List.foldl_cons, h1, ih]
    congr 1
    · rw [List.countP_cons]
      congr 1
      cases c <;> (simp; try omega)
    · rw [List.length_cons, List.range_succ_eq_map, List.map_cons, List.map_map, List.sum_cons]
      have h2 : ((List.range t.length).map ((fun k =>
            if (c :: t).getD k false then t.length + 1 - k else 0) ∘ Nat.succ)).sum
          = ((List.range t.length).map fun k => if t.getD k false then t.length - k else 0).sum := by
        congr 1
        apply List.map_congr_left
        intro k hk
        simp [Function.comp]
      rw [h2]
      congr 1
      cases c <;> simp <;> ring

/-- The closed form of R130: sum1 counts the ones, sum2 weighs a one at index k by `|t| - k`. -/
theorem fsum_eq (t : List Bit) : fsum t
    = (t.countP id % 255,
       ((List.range t.length).map fun k => if t.getD k false then t.length - k else 0).sum % 255) := by
  have := foldl_fsumStep t 0 0
  simpa [fsum] using this

theorem fsum_fst_lt (t : List Bit) : (fsum t).1 < 255 := by
  rw [fsum_eq]; exact Nat.mod_lt _ (by omega)

theorem fsum_snd_lt (t : List Bit) : (fsum t).2 < 255 := by
  rw [fsum_eq]; exact Nat.mod_lt _ (by omega)

/-- The two fields do not overlap and the mask removes nothing (R131). -/
theorem fcs_eq (t : List Bit) : fcs t = (fsum t).2 * 256 + (fsum t).1 := by
  have h1 := fsum_fst_lt t
  have h2 := fsum_snd_lt t
  have hor : ((fsum t).2 <<< 8) ||| (fsum t).1 = (fsum t).2 * 256 + (fsum t).1 := by
    rw [← Nat.shiftLeft_add_eq_or_of_lt (by omega : (fsum t).1 < 2 ^ 8), Nat.shiftLeft_eq]
  have hmask : (1 <<< checksumSize - 1 : Nat) = 2 ^ 16 - 1 := by decide
  unfold fcs
  rw [hmask, Nat.and_two_pow_sub_one_eq_mod]
  show ((fsum t).2 <<< 8 ||| (fsum t).1) % 2 ^ 16 = _
  rw [hor]
  exact Nat.mod_eq_of_lt (by omega)

theorem fcs_lt (t : List Bit) : fcs t < 2 ^ 16 := by
  have h1 := fsum_fst_lt t
  have h2 := fsum_snd_lt t
  rw [fcs_eq]; omega

/-- CSUM.SUM1 is sum1 (R31). -/
theorem fcs_mod (t : List Bit) : fcs t % 256 = (fsum t).1 := by
  have h1 := fsum_fst_lt t
  rw [fcs_eq]; omega

/-- CSUM.SUM2 is sum2 (R31). -/
theorem fcs_div (t : List Bit) : fcs t / 256 = (fsum t).2 := by
  have h1 := fsum_fst_lt t
  rw [fcs_eq]; omega

theorem length_received {s : List Bit} (h : 16 ≤ s.length) : (received s).length = 16 := by
  simp [received, checksumSize]; omega

theorem val_received_lt (s : List Bit) : val (received s) < 2 ^ 16 := by
  refine lt_of_lt_of_le (val_lt _) (Nat.pow_le_pow_right (by omega) ?_)
  simp [received, checksumSize]; omega

theorem payload_append_received (s : List Bit) : payload s ++ received s = s :=
  List.take_append_drop _ _

@[simp] theorem length_fletcherGen (t : List Bit) : (fletcherGen t).length = t.length + 16 := by
  simp [fletcherGen]

theorem payload_fletcherGen (t : List Bit) : payload (fletcherGen t) = t := by
  simp [payload, fletcherGen, checksumSize]

theorem received_fletcherGen (t : List Bit) : received (fletcherGen t) = bitsOf 16 (fcs t) := by
  simp [received, fletcherGen, checksumSize]

/-- The field FGEN appends spells the checksum (R133, R137). -/
theorem val_received_fletcherGen (t : List Bit) : val (received (fletcherGen t)) = fcs t := by
  rw [received_fletcherGen, val_bitsOf, Nat.mod_eq_of_lt (fcs_lt t)]

/-- One flipped bit moves sum1 by one modulo 255, so the checksum changes (R138). -/
theorem fcs_set_ne (t : List Bit) (k : Nat) (hk : k < t.length) :
    fcs (t.set k (!t[k])) ≠ fcs t := by
  intro h
  have h1 := congrArg (· % 256) h
  simp only [fcs_mod] at h1
  rw [fsum_eq, fsum_eq] at h1
  simp only at h1
  have hsplit : t = t.take k ++ t[k] :: t.drop (k + 1) := by simp
  have hset : t.set k (!t[k]) = t.take k ++ (!t[k]) :: t.drop (k + 1) := by
    rw [List.set_eq_take_append_cons_drop, if_pos hk]
  rw [hset] at h1
  have h2 : t.countP id = (t.take k ++ t[k] :: t.drop (k + 1)).countP id := congrArg _ hsplit
  rw [h2] at h1
  simp only [List.countP_append, List.countP_cons] at h1
  cases hb : t[k] <;> simp [hb] at h1 <;> omega

end Sys2Proof.Machine
end

