-- ==== Sys2Proof/Laws/Hamming.lean ====
section
/-! SUPPORT. The laws of the Hamming codec's functions: the parity count (R90, R91), the layout of
positions (R92, R97, R99), the syndrome (R93, R94), the corrector (R96), the encoder (R100).
-/
namespace Sys2Proof.Machine

/-! ### The parity count -/

/-- If every smaller p fails and some p within the fuel holds, the loop finds the least one. -/
theorem pbcLoop_spec (L : Nat) : ∀ fuel p, (∀ q < p, 2 ^ q < L + q + 1) →
    (∃ q, p ≤ q ∧ q ≤ p + fuel ∧ L + q + 1 ≤ 2 ^ q) →
    L + pbcLoop L fuel p + 1 ≤ 2 ^ pbcLoop L fuel p ∧ ∀ q < pbcLoop L fuel p, 2 ^ q < L + q + 1 := by
  intro fuel
  induction fuel with
  | zero =>
    rintro p hbelow ⟨q, hpq, hqp, hq⟩
    obtain rfl : q = p := by omega
    exact ⟨hq, hbelow⟩
  | succ fuel ih =>
    rintro p hbelow ⟨q, hpq, hqp, hq⟩
    rw [pbcLoop]
    split
    · rename_i hp
      refine ih (p + 1) (fun r hr => ?_) ⟨q, ?_, by omega, hq⟩
      · rcases Nat.lt_succ_iff_lt_or_eq.1 hr with h | rfl
        · exact hbelow r h
        · exact hp
      · rcases Nat.lt_or_ge p q with h | h
        · exact h
        · obtain rfl : q = p := by omega
          omega
    · rename_i hp
      exact ⟨by omega, hbelow⟩

theorem two_mul_succ_le_two_pow (L : Nat) : 2 * (L + 1) ≤ 2 ^ (L + 1) := by
  induction L with
  | zero => simp
  | succ L ih => rw [pow_succ]; omega

theorem pbc_spec (L : Nat) : L + pbc L + 1 ≤ 2 ^ pbc L ∧ ∀ q < pbc L, 2 ^ q < L + q + 1 :=
  pbcLoop_spec L (L + 1) 0 (by simp)
    ⟨L + 1, by omega, by omega, by have := two_mul_succ_le_two_pow L; omega⟩

/-- `2^p >= L + p + 1` holds at p = pbc(L) (R90). -/
theorem le_two_pow_pbc (L : Nat) : L + pbc L + 1 ≤ 2 ^ pbc L := (pbc_spec L).1

/-- and at no smaller p (R90). -/
theorem two_pow_lt_of_lt_pbc {L q : Nat} (h : q < pbc L) : 2 ^ q < L + q + 1 := (pbc_spec L).2 q h

theorem pbc_le_of_le_two_pow {L p : Nat} (h : L + p + 1 ≤ 2 ^ p) : pbc L ≤ p := by
  by_contra hlt
  have := two_pow_lt_of_lt_pbc (Nat.lt_of_not_le hlt)
  omega

theorem pbc_mono {L M : Nat} (h : L ≤ M) : pbc L ≤ pbc M :=
  pbc_le_of_le_two_pow (by have := le_two_pow_pbc M; omega)

/-- `pbc(NMAX) <= 31` for every NMAX the spec allows (R21). -/
theorem pbc_le_31 {n : Nat} (h : n ≤ 2 ^ 30) : pbc n ≤ 31 :=
  pbc_le_of_le_two_pow (by omega)

/-- A data string of at least one bit needs at least two parity bits (R99). -/
theorem two_le_pbc {m : Nat} (h : 1 ≤ m) : 2 ≤ pbc m := by
  by_contra hlt
  have hle := le_two_pow_pbc m
  have : pbc m = 0 ∨ pbc m = 1 := by omega
  rcases this with h0 | h0 <;> rw [h0] at hle <;> simp at hle <;> omega

/-! ### Parity positions and data positions -/

/-- npar(n) is the bit length of n (R92). -/
theorem npar_le_iff (n k : Nat) : npar n ≤ k ↔ n < 2 ^ k := by
  unfold npar
  split
  · subst_vars; simp
  · rename_i h
    rw [← Nat.log2_lt h]
    omega

theorem lt_two_pow_npar (n : Nat) : n < 2 ^ npar n := (npar_le_iff n _).1 le_rfl

theorem npar_two_pow (j : Nat) : npar (2 ^ j) = j + 1 := by
  simp [npar, Nat.log2_two_pow]

theorem npar_mono {m n : Nat} (h : m ≤ n) : npar m ≤ npar n :=
  (npar_le_iff m _).2 (lt_of_le_of_lt h (lt_two_pow_npar n))

/-- One more position: one more parity position exactly when it is a power of two (R92). -/
theorem npar_succ (n : Nat) : npar (n + 1) = npar n + if pow2 (n + 1) then 1 else 0 := by
  split
  · rename_i h
    obtain ⟨j, hj⟩ := (pow2_iff _).1 h
    have h1 : npar n = j := by
      apply Nat.le_antisymm
      · exact (npar_le_iff n j).2 (by omega)
      · rcases j with _ | j
        · omega
        · by_contra hlt
          have := (npar_le_iff n j).1 (by omega)
          rw [pow_succ] at hj
          have := Nat.two_pow_pos j
          omega
    rw [hj, npar_two_pow, h1]
  · rename_i h
    have hlt := lt_two_pow_npar n
    apply Nat.le_antisymm
    · refine (npar_le_iff _ _).2 ?_
      rcases Nat.lt_or_ge (n + 1) (2 ^ npar n) with h' | h'
      · exact h'
      · exact absurd ((pow2_iff _).2 ⟨npar n, by omega⟩) h
    · exact npar_mono (Nat.le_succ n)

theorem npar_le_self (n : Nat) : npar n ≤ n :=
  (npar_le_iff n n).2 Nat.lt_two_pow_self

theorem ndata_succ (n : Nat) : ndata (n + 1) = ndata n + if pow2 (n + 1) then 0 else 1 := by
  have := npar_le_self n
  unfold ndata
  rw [npar_succ]
  split <;> omega

/-- Every bit position of a frame has a pbc-bit number, so npar(n) <= pbc(n) (R94). -/
theorem npar_le_pbc (n : Nat) : npar n ≤ pbc n :=
  (npar_le_iff n _).2 (by have := le_two_pow_pbc n; omega)

/-- The layout of a codeword: the parity positions are exactly `2^0 .. 2^(r-1)` (R99). -/
theorem npar_codeword {m : Nat} (h : 1 ≤ m) : npar (m + pbc m) = pbc m := by
  have h2 := two_le_pbc h
  have hle := le_two_pow_pbc m
  apply Nat.le_antisymm
  · exact (npar_le_iff _ _).2 (by omega)
  · by_contra hlt
    have hk := (npar_le_iff (m + pbc m) (pbc m - 1)).1 (by omega)
    have := two_pow_lt_of_lt_pbc (L := m) (q := pbc m - 1) (by omega)
    omega

theorem ndata_codeword {m : Nat} (h : 1 ≤ m) : ndata (m + pbc m) = m := by
  rw [ndata, npar_codeword h]; omega

theorem length_dposDescending (n : Nat) : (dposDescending n).length = ndata n := by
  induction n with
  | zero => rfl
  | succ n ih =>
    rw [dposDescending, ndata_succ]
    split <;> simp [ih]

theorem mem_dposDescending {n i : Nat} :
    i ∈ dposDescending n ↔ 1 ≤ i ∧ i ≤ n ∧ pow2 i = false := by
  induction n with
  | zero => simp [dposDescending]; omega
  | succ n ih =>
    rw [dposDescending]
    split
    · rename_i h
      rw [ih]
      constructor
      · rintro ⟨h1, h2, h3⟩; exact ⟨h1, by omega, h3⟩
      · rintro ⟨h1, h2, h3⟩
        refine ⟨h1, ?_, h3⟩
        rcases Nat.lt_or_ge n i with h' | h'
        · obtain rfl : i = n + 1 := by omega
          simp [h] at h3
        · exact h'
    · rename_i h
      rw [List.mem_cons, ih]
      constructor
      · rintro (rfl | ⟨h1, h2, h3⟩)
        · exact ⟨by omega, le_rfl, by simpa using h⟩
        · exact ⟨h1, by omega, h3⟩
      · rintro ⟨h1, h2, h3⟩
        rcases Nat.lt_or_ge n i with h' | h'
        · exact .inl (by omega)
        · exact .inr ⟨h1, h', h3⟩

/-! ### The syndrome -/

theorem synd_lt (s : List Bit) : synd s < 2 ^ npar s.length := by
  induction s with
  | nil => simp [synd]
  | cons b s ih =>
    rw [synd, List.length_cons]
    apply Nat.xor_lt_two_pow
    · split
      · exact lt_two_pow_npar _
      · exact Nat.two_pow_pos _
    · exact lt_of_lt_of_le ih (Nat.pow_le_pow_right (by omega) (npar_mono (Nat.le_succ _)))

/-- "0 <= synd(s) < 2^npar(n) <= 2^pbc(n)" (R94). -/
theorem synd_lt_two_pow_pbc (s : List Bit) : synd s < 2 ^ pbc s.length :=
  lt_of_lt_of_le (synd_lt s) (Nat.pow_le_pow_right (by omega) (npar_le_pbc _))

@[simp] theorem length_flipAt (s : List Bit) (i : Nat) : (flipAt s i).length = s.length := by
  induction s with
  | nil => rfl
  | cons b s ih => rw [flipAt]; split <;> simp [ih]

/-- The syndrome is linear (R94). -/
theorem synd_flipAt (s : List Bit) (i : Nat) (h1 : 1 ≤ i) (h2 : i ≤ s.length) :
    synd (flipAt s i) = synd s ^^^ i := by
  induction s with
  | nil => simp at h2; omega
  | cons b s ih =>
    rw [flipAt]
    split
    · rename_i hi
      subst hi
      cases b
      · simp [synd, Nat.xor_comm]
      · simp only [Bool.not_true, synd, Bool.false_eq_true, if_false, if_true, Nat.zero_xor]
        rw [Nat.xor_comm (s.length + 1), Nat.xor_assoc, Nat.xor_self, Nat.xor_zero]
    · rename_i hi
      have hle : i ≤ s.length := by simp at h2; omega
      rw [synd, synd, length_flipAt, ih hle, Nat.xor_assoc]

/-- A corrected frame has syndrome zero (R96). -/
theorem synd_flipAt_synd (s : List Bit) (h1 : 0 < synd s) (h2 : synd s < s.length) :
    synd (flipAt s (synd s)) = 0 := by
  rw [synd_flipAt s _ h1 (by omega), Nat.xor_self]

theorem flipAt_flipAt (s : List Bit) (i : Nat) : flipAt (flipAt s i) i = s := by
  induction s with
  | nil => rfl
  | cons b s ih => rw [flipAt]; split <;> simp_all [flipAt]

/-- Exactly the bit at position i changes (R96). -/
theorem getD_flipAt (s : List Bit) (i k : Nat) (h1 : 1 ≤ i) (h2 : i ≤ s.length) (hk : k < s.length) :
    (flipAt s i).getD k false
      = if k = s.length - i then !(s.getD k false) else s.getD k false := by
  induction s generalizing k with
  | nil => simp at hk
  | cons b s ih =>
    rw [flipAt]
    simp only [List.length_cons] at h2 hk ⊢
    split
    · rename_i hi
      subst hi
      cases k <;> simp
    · rename_i hi
      cases k with
      | zero => simp; omega
      | succ k =>
        rw [List.getD_cons_succ, List.getD_cons_succ, ih k (by omega) (by omega)]
        congr 1
        simp only [eq_iff_iff]
        omega

theorem syndColumn_cons (b : Bit) (s : List Bit) (j : Nat) :
    syndColumn (b :: s) j = (syndColumn s j ^^ (b && (s.length + 1).testBit j)) := by
  unfold syndColumn
  rw [List.length_cons, List.range_succ, List.foldl_append]
  simp only [List.foldl_cons, List.foldl_nil, bitAt_cons_self]
  congr 1
  apply List.foldl_ext
  intro c k hk
  rw [bitAt_cons_of_le b (by simpa [Nat.succ_le_iff] using hk)]

/-- Column j of the source's procedure is bit j of the syndrome (R93). -/
theorem testBit_synd (s : List Bit) (j : Nat) : (synd s).testBit j = syndColumn s j := by
  induction s with
  | nil => simp [synd, syndColumn]
  | cons b s ih =>
    rw [syndColumn_cons, synd, Nat.testBit_xor, ih, Bool.xor_comm]
    cases b <;> simp

theorem sum_testBit (x p : Nat) :
    ((List.range p).map fun j => (x.testBit j).toNat * 2 ^ j).sum = x % 2 ^ p := by
  induction p with
  | zero => simp [Nat.mod_one]
  | succ p ih =>
    rw [List.range_succ, List.map_append, List.sum_append, ih, Nat.mod_pow_succ]
    simp only [List.map_cons, List.map_nil, List.sum_cons, List.sum_nil, Nat.toNat_testBit]
    ring

/-- The source's procedure gives the syndrome modulo `2^p` (R93); with `2^p` above the length, p does
not matter (R94). -/
theorem syndFromColumns_eq (s : List Bit) (p : Nat) : syndFromColumns s p = synd s % 2 ^ p := by
  unfold syndFromColumns
  simp only [← testBit_synd]
  exact sum_testBit _ _

/-! ### Stripping and placing -/

theorem strip_cons (b : Bit) (s : List Bit) :
    strip .transmission (b :: s)
      = if pow2 (s.length + 1) then strip .transmission s else b :: strip .transmission s := by
  have h : (dposDescending s.length).map (bitAt (b :: s)) = (dposDescending s.length).map (bitAt s) :=
    List.map_congr_left fun i hi => bitAt_cons_of_le b (mem_dposDescending.1 hi).2.1
  simp only [strip, dpos, List.length_cons, dposDescending]
  split
  · exact h
  · rw [List.map_cons, bitAt_cons_self, h]

/-- The other order is the reversal (R97). -/
theorem strip_reversed (s : List Bit) : strip .reversed s = (strip .transmission s).reverse := by
  simp [strip, dpos]

theorem length_strip (order : ExtractOrder) (s : List Bit) :
    (strip order s).length = ndata s.length := by
  cases order <;> simp [strip, dpos, length_dposDescending]

@[simp] theorem length_placeDescending (n : Nat) (d : List Bit) :
    (placeDescending n d).length = n := by
  induction n generalizing d with
  | zero => rfl
  | succ n ih => rw [placeDescending]; split <;> simp [ih]

@[simp] theorem length_placeData (order : ExtractOrder) (n : Nat) (d : List Bit) :
    (placeData order n d).length = n := by
  cases order <;> simp [placeData]

@[simp] theorem length_setParity (S0 : Nat) (s : List Bit) : (setParity S0 s).length = s.length := by
  induction s with
  | nil => rfl
  | cons b s ih => simp [setParity, ih]

theorem strip_setParity (order : ExtractOrder) (S0 : Nat) (s : List Bit) :
    strip order (setParity S0 s) = strip order s := by
  have h : strip .transmission (setParity S0 s) = strip .transmission s := by
    induction s with
    | nil => rfl
    | cons b s ih =>
      rw [setParity, strip_cons, strip_cons, length_setParity, ih]
      split <;> rfl
  cases order
  · exact h
  · rw [strip_reversed, strip_reversed, h]

/-- The data bits, and nothing else, decide a string whose parity positions hold 0. -/
theorem setParity_zero (s : List Bit) :
    setParity 0 s = placeDescending s.length (strip .transmission s) := by
  induction s with
  | nil => rfl
  | cons b s ih =>
    rw [setParity, List.length_cons, placeDescending, strip_cons, ih]
    split <;> simp

theorem strip_placeDescending (n : Nat) (d : List Bit) (h : d.length = ndata n) :
    strip .transmission (placeDescending n d) = d := by
  induction n generalizing d with
  | zero => simp [ndata] at h; subst h; rfl
  | succ n ih =>
    rw [ndata_succ] at h
    rw [placeDescending]
    split
    · rename_i hp
      rw [strip_cons, length_placeDescending, if_pos hp, ih d (by simpa [hp] using h)]
    · rename_i hp
      rw [strip_cons, length_placeDescending, if_neg hp]
      cases d with
      | nil => simp [hp] at h
      | cons b d =>
        rw [List.headD_cons, List.tail_cons, ih d (by simpa [hp] using h)]

theorem strip_placeData (order : ExtractOrder) (n : Nat) (d : List Bit) (h : d.length = ndata n) :
    strip order (placeData order n d) = d := by
  cases order
  · exact strip_placeDescending n d h
  · rw [strip_reversed, placeData, strip_placeDescending n _ (by simpa using h), List.reverse_reverse]

/-! ### The encoder -/

theorem setParity_congr {S T : Nat} (s : List Bit) (h : S % 2 ^ npar s.length = T % 2 ^ npar s.length) :
    setParity S s = setParity T s := by
  induction s with
  | nil => rfl
  | cons b s ih =>
    rw [List.length_cons] at h
    have hdvd : 2 ^ npar s.length ∣ 2 ^ npar (s.length + 1) :=
      pow_dvd_pow 2 (npar_mono (Nat.le_succ _))
    have hlow : S % 2 ^ npar s.length = T % 2 ^ npar s.length := by
      rw [← Nat.mod_mod_of_dvd S hdvd, h, Nat.mod_mod_of_dvd T hdvd]
    rw [setParity, setParity, ih hlow]
    congr 1
    split
    · rename_i hp
      obtain ⟨j, hj⟩ := (pow2_iff _).1 hp
      rw [hj, npar_two_pow] at h
      rw [hj, Nat.log2_two_pow]
      have := congrArg (·.testBit j) h
      simpa [Nat.testBit_mod_two_pow] using this
    · rfl

theorem npar_of_succ_eq_two_pow {n j : Nat} (h : n + 1 = 2 ^ j) : npar n = j := by
  have h1 := npar_succ n
  rw [if_pos ((pow2_iff _).2 ⟨j, h⟩), h, npar_two_pow] at h1
  omega

theorem two_pow_mul_xor {x j : Nat} (b : Bool) (h : x < 2 ^ j) :
    (if b then 2 ^ j else 0) ^^^ x = b.toNat * 2 ^ j + x := by
  cases b
  · simp
  · have := Nat.two_pow_add_eq_or_of_lt h 1
    simp only [if_true, Bool.toNat_true, one_mul]
    apply Nat.eq_of_testBit_eq
    intro i
    rw [mul_one] at this
    rw [this]
    simp only [Nat.testBit_xor, Nat.testBit_or, Nat.testBit_two_pow]
    rcases eq_or_ne j i with rfl | hne
    · simp [Nat.testBit_lt_two_pow h]
    · simp [hne]

/-- Setting the parity bits from S adds S to the syndrome: a 1 at position `2^j` toggles bit j and no
other (R100). -/
theorem synd_setParity (S : Nat) (s : List Bit) :
    synd (setParity S s) = synd (setParity 0 s) ^^^ (S % 2 ^ npar s.length) := by
  induction s with
  | nil => simp [setParity, synd, npar, Nat.mod_one]
  | cons b s ih =>
    rw [setParity, setParity, synd, synd, length_setParity, length_setParity, ih, List.length_cons]
    by_cases hp : pow2 (s.length + 1) = true
    · obtain ⟨j, hj⟩ := (pow2_iff _).1 hp
      have hnp : npar s.length = j := npar_of_succ_eq_two_pow hj
      simp only [hp, if_true, Nat.zero_testBit, Bool.false_eq_true, if_false, Nat.zero_xor]
      rw [hj, npar_two_pow, Nat.log2_two_pow, hnp, Nat.mod_pow_succ, ← Nat.toNat_testBit]
      have hx := two_pow_mul_xor (S.testBit j) (Nat.mod_lt S (Nat.two_pow_pos j))
      rw [add_comm, mul_comm, ← hx, ← Nat.xor_assoc, ← Nat.xor_assoc,
        Nat.xor_comm (synd (setParity 0 s))]
    · have hnp : npar (s.length + 1) = npar s.length := by rw [npar_succ]; simp [hp]
      rw [hnp]
      simp only [hp, Bool.false_eq_true, if_false, Nat.xor_assoc]

/-- Every string is what its own parity bits make of it. -/
theorem exists_setParity_self (s : List Bit) : ∃ S < 2 ^ npar s.length, setParity S s = s := by
  induction s with
  | nil => exact ⟨0, by simp, rfl⟩
  | cons b s ih =>
    obtain ⟨S, hS, hs⟩ := ih
    rw [List.length_cons]
    by_cases hp : pow2 (s.length + 1) = true
    · obtain ⟨j, hj⟩ := (pow2_iff _).1 hp
      have hnp : npar s.length = j := npar_of_succ_eq_two_pow hj
      rw [hnp] at hS
      refine ⟨b.toNat * 2 ^ j + S, ?_, ?_⟩
      · rw [hj, npar_two_pow, pow_succ]
        cases b <;> simp <;> omega
      · rw [setParity, if_pos hp, hj, Nat.log2_two_pow]
        congr 1
        · cases b <;> simp [Nat.testBit_lt_two_pow, hS, Nat.testBit_two_pow_add_eq]
        · rw [setParity_congr (T := S), hs]
          rw [hnp]
          simp [Nat.add_mod]
    · refine ⟨S, ?_, ?_⟩
      · rw [npar_succ]; simpa [hp] using hS
      · rw [setParity, if_neg hp, hs]

/-- A string is decided by its length, its data bits and its syndrome (R100: "the unique string"). -/
theorem eq_of_strip_of_synd {s t : List Bit} (hlen : s.length = t.length)
    (hdata : strip .transmission s = strip .transmission t) (hsynd : synd s = synd t) : s = t := by
  have h0 : setParity 0 s = setParity 0 t := by rw [setParity_zero, setParity_zero, hlen, hdata]
  obtain ⟨S, hS, hs⟩ := exists_setParity_self s
  obtain ⟨T, hT, ht⟩ := exists_setParity_self t
  have hST : S = T := by
    have h1 := synd_setParity S s
    have h2 := synd_setParity T t
    rw [hs, Nat.mod_eq_of_lt hS] at h1
    rw [ht, Nat.mod_eq_of_lt hT] at h2
    rw [← h0, ← hsynd, h1] at h2
    exact Nat.xor_right_injective h2
  have hover : ∀ (S : Nat) (s t : List Bit), setParity 0 s = setParity 0 t →
      setParity S s = setParity S t := by
    intro S s
    induction s with
    | nil =>
      intro t h
      cases t with
      | nil => rfl
      | cons b t => simp [setParity] at h
    | cons b s ih =>
      intro t h
      cases t with
      | nil => simp [setParity] at h
      | cons c t =>
        simp only [setParity, List.cons.injEq] at h ⊢
        have hl : s.length = t.length := by simpa using congrArg List.length h.2
        rw [hl] at h ⊢
        refine ⟨?_, ih t h.2⟩
        split
        · rfl
        · rename_i hp; simpa [hp] using h.1
  rw [← hs, ← ht, ← hST]
  exact hover S s t h0

theorem setParity_placeDescending_zero (n : Nat) (d : List Bit) :
    setParity 0 (placeDescending n d) = placeDescending n d := by
  induction n generalizing d with
  | zero => rfl
  | succ n ih =>
    rw [placeDescending]
    split <;> simp_all [setParity]

theorem setParity_placeData_zero (order : ExtractOrder) (n : Nat) (d : List Bit) :
    setParity 0 (placeData order n d) = placeData order n d := by
  cases order <;> exact setParity_placeDescending_zero _ _

/-- A codeword has `m + pbc(m)` bits (R100). -/
@[simp] theorem length_hammingEncode (order : ExtractOrder) (d : List Bit) :
    (hammingEncode order d).length = d.length + pbc d.length := by
  simp [hammingEncode]

/-- A codeword has syndrome zero: R100 (b). -/
theorem synd_hammingEncode (order : ExtractOrder) (d : List Bit) :
    synd (hammingEncode order d) = 0 := by
  simp only [hammingEncode]
  rw [synd_setParity, setParity_placeData_zero, Nat.mod_eq_of_lt (synd_lt _), Nat.xor_self]

/-- A codeword carries its data: R100 (a). -/
theorem strip_hammingEncode (order : ExtractOrder) (d : List Bit) (h : d ≠ []) :
    strip order (hammingEncode order d) = d := by
  have hm : 1 ≤ d.length := List.length_pos_iff.2 h
  simp only [hammingEncode]
  rw [strip_setParity, strip_placeData _ _ _ (ndata_codeword hm).symm]

theorem strip_inj {order : ExtractOrder} {s t : List Bit} (h : strip order s = strip order t) :
    strip .transmission s = strip .transmission t := by
  cases order
  · exact h
  · rw [strip_reversed, strip_reversed] at h
    exact List.reverse_injective h

/-- `encode(d)` is the only string of its length with (a) and (b) (R100). -/
theorem hammingEncode_unique (order : ExtractOrder) (d c : List Bit) (h : d ≠ [])
    (hlen : c.length = d.length + pbc d.length) (hdata : strip order c = d) (hsynd : synd c = 0) :
    c = hammingEncode order d :=
  eq_of_strip_of_synd (by simp [hlen]) (strip_inj (by rw [hdata, strip_hammingEncode order d h]))
    (by rw [hsynd, synd_hammingEncode])

/-! ### The padded text -/

/-- The padded text is whole chunks (R98, R104). -/
theorem length_pad8 (d : List Bit) : (pad8 d).length = 8 * ((d.length + 7) / 8) := by
  simp only [pad8, List.length_append, List.length_replicate, ceilChunks_eq, chunkSize]
  omega

end Sys2Proof.Machine
end

