-- ==== Sys2Proof/Laws/State.lean ====
section
/-! SUPPORT. One lemma per field per update, so that no proof unfolds a record update.
-/
namespace Sys2Proof.Machine

/-! ### `setCmd` -/

@[simp] theorem setCmd_cfg (w : Word) (s : State) : (setCmd w s).cfg = s.cfg := rfl
@[simp] theorem setCmd_cmd (w : Word) (s : State) : (setCmd w s).cmd = w := rfl
@[simp] theorem setCmd_tag (w : Word) (s : State) : (setCmd w s).tag = s.tag := rfl
@[simp] theorem setCmd_fovf (w : Word) (s : State) : (setCmd w s).fovf = s.fovf := rfl
@[simp] theorem setCmd_fb (w : Word) (s : State) : (setCmd w s).fb = s.fb := rfl
@[simp] theorem setCmd_p (w : Word) (s : State) : (setCmd w s).p = s.p := rfl
@[simp] theorem setCmd_synd (w : Word) (s : State) : (setCmd w s).synd = s.synd := rfl
@[simp] theorem setCmd_pos (w : Word) (s : State) : (setCmd w s).pos = s.pos := rfl
@[simp] theorem setCmd_csum (w : Word) (s : State) : (setCmd w s).csum = s.csum := rfl
@[simp] theorem setCmd_rcsum (w : Word) (s : State) : (setCmd w s).rcsum = s.rcsum := rfl
@[simp] theorem setCmd_ob (w : Word) (s : State) : (setCmd w s).ob = s.ob := rfl
@[simp] theorem setCmd_pending (w : Word) (s : State) : (setCmd w s).pending = s.pending := rfl
@[simp] theorem setCmd_replies (w : Word) (s : State) : (setCmd w s).replies = s.replies := rfl

/-! ### `result` -/

@[simp] theorem result_cfg (tag : Tag) (p synd pos csum rcsum : Nat) (out : List Bit) (s : State) : (result tag p synd pos csum rcsum out s).cfg = s.cfg := rfl
@[simp] theorem result_cmd (tag : Tag) (p synd pos csum rcsum : Nat) (out : List Bit) (s : State) : (result tag p synd pos csum rcsum out s).cmd = s.cmd := rfl
@[simp] theorem result_tag (tag : Tag) (p synd pos csum rcsum : Nat) (out : List Bit) (s : State) : (result tag p synd pos csum rcsum out s).tag = tag := rfl
@[simp] theorem result_fovf (tag : Tag) (p synd pos csum rcsum : Nat) (out : List Bit) (s : State) : (result tag p synd pos csum rcsum out s).fovf = s.fovf := rfl
@[simp] theorem result_fb (tag : Tag) (p synd pos csum rcsum : Nat) (out : List Bit) (s : State) : (result tag p synd pos csum rcsum out s).fb = s.fb := rfl
@[simp] theorem result_p (tag : Tag) (p synd pos csum rcsum : Nat) (out : List Bit) (s : State) : (result tag p synd pos csum rcsum out s).p = toWord p := rfl
@[simp] theorem result_synd (tag : Tag) (p synd pos csum rcsum : Nat) (out : List Bit) (s : State) : (result tag p synd pos csum rcsum out s).synd = toWord synd := rfl
@[simp] theorem result_pos (tag : Tag) (p synd pos csum rcsum : Nat) (out : List Bit) (s : State) : (result tag p synd pos csum rcsum out s).pos = toWord pos := rfl
@[simp] theorem result_csum (tag : Tag) (p synd pos csum rcsum : Nat) (out : List Bit) (s : State) : (result tag p synd pos csum rcsum out s).csum = toField csum := rfl
@[simp] theorem result_rcsum (tag : Tag) (p synd pos csum rcsum : Nat) (out : List Bit) (s : State) : (result tag p synd pos csum rcsum out s).rcsum = toField rcsum := rfl
@[simp] theorem result_ob (tag : Tag) (p synd pos csum rcsum : Nat) (out : List Bit) (s : State) : (result tag p synd pos csum rcsum out s).ob = out := rfl
@[simp] theorem result_pending (tag : Tag) (p synd pos csum rcsum : Nat) (out : List Bit) (s : State) : (result tag p synd pos csum rcsum out s).pending = s.pending := rfl
@[simp] theorem result_replies (tag : Tag) (p synd pos csum rcsum : Nat) (out : List Bit) (s : State) : (result tag p synd pos csum rcsum out s).replies = s.replies := rfl

/-! ### `raiseTag` -/

@[simp] theorem raiseTag_cfg (tag : Tag) (s : State) : (raiseTag tag s).cfg = s.cfg := rfl
@[simp] theorem raiseTag_cmd (tag : Tag) (s : State) : (raiseTag tag s).cmd = s.cmd := rfl
@[simp] theorem raiseTag_tag (tag : Tag) (s : State) : (raiseTag tag s).tag = tag := rfl
@[simp] theorem raiseTag_fovf (tag : Tag) (s : State) : (raiseTag tag s).fovf = s.fovf := rfl
@[simp] theorem raiseTag_fb (tag : Tag) (s : State) : (raiseTag tag s).fb = s.fb := rfl
@[simp] theorem raiseTag_p (tag : Tag) (s : State) : (raiseTag tag s).p = 0#32 := rfl
@[simp] theorem raiseTag_synd (tag : Tag) (s : State) : (raiseTag tag s).synd = 0#32 := rfl
@[simp] theorem raiseTag_pos (tag : Tag) (s : State) : (raiseTag tag s).pos = 0#32 := rfl
@[simp] theorem raiseTag_csum (tag : Tag) (s : State) : (raiseTag tag s).csum = 0#16 := rfl
@[simp] theorem raiseTag_rcsum (tag : Tag) (s : State) : (raiseTag tag s).rcsum = 0#16 := rfl
@[simp] theorem raiseTag_ob (tag : Tag) (s : State) : (raiseTag tag s).ob = [] := rfl
@[simp] theorem raiseTag_pending (tag : Tag) (s : State) : (raiseTag tag s).pending = s.pending := rfl
@[simp] theorem raiseTag_replies (tag : Tag) (s : State) : (raiseTag tag s).replies = s.replies := rfl

/-! ### `clearFrame` -/

@[simp] theorem clearFrame_cfg  (s : State) : (clearFrame s).cfg = s.cfg := rfl
@[simp] theorem clearFrame_cmd  (s : State) : (clearFrame s).cmd = s.cmd := rfl
@[simp] theorem clearFrame_tag  (s : State) : (clearFrame s).tag = s.tag := rfl
@[simp] theorem clearFrame_fovf  (s : State) : (clearFrame s).fovf = false := rfl
@[simp] theorem clearFrame_fb  (s : State) : (clearFrame s).fb = [] := rfl
@[simp] theorem clearFrame_p  (s : State) : (clearFrame s).p = s.p := rfl
@[simp] theorem clearFrame_synd  (s : State) : (clearFrame s).synd = s.synd := rfl
@[simp] theorem clearFrame_pos  (s : State) : (clearFrame s).pos = s.pos := rfl
@[simp] theorem clearFrame_csum  (s : State) : (clearFrame s).csum = s.csum := rfl
@[simp] theorem clearFrame_rcsum  (s : State) : (clearFrame s).rcsum = s.rcsum := rfl
@[simp] theorem clearFrame_ob  (s : State) : (clearFrame s).ob = s.ob := rfl
@[simp] theorem clearFrame_pending  (s : State) : (clearFrame s).pending = s.pending := rfl
@[simp] theorem clearFrame_replies  (s : State) : (clearFrame s).replies = s.replies := rfl

/-! ### `deliver` -/

@[simp] theorem deliver_cfg (r : Reply) (s : State) : (deliver r s).cfg = s.cfg := rfl
@[simp] theorem deliver_cmd (r : Reply) (s : State) : (deliver r s).cmd = s.cmd := rfl
@[simp] theorem deliver_tag (r : Reply) (s : State) : (deliver r s).tag = s.tag := rfl
@[simp] theorem deliver_fovf (r : Reply) (s : State) : (deliver r s).fovf = s.fovf := rfl
@[simp] theorem deliver_fb (r : Reply) (s : State) : (deliver r s).fb = s.fb := rfl
@[simp] theorem deliver_p (r : Reply) (s : State) : (deliver r s).p = s.p := rfl
@[simp] theorem deliver_synd (r : Reply) (s : State) : (deliver r s).synd = s.synd := rfl
@[simp] theorem deliver_pos (r : Reply) (s : State) : (deliver r s).pos = s.pos := rfl
@[simp] theorem deliver_csum (r : Reply) (s : State) : (deliver r s).csum = s.csum := rfl
@[simp] theorem deliver_rcsum (r : Reply) (s : State) : (deliver r s).rcsum = s.rcsum := rfl
@[simp] theorem deliver_ob (r : Reply) (s : State) : (deliver r s).ob = s.ob := rfl
@[simp] theorem deliver_pending (r : Reply) (s : State) : (deliver r s).pending = s.pending := rfl
@[simp] theorem deliver_replies (r : Reply) (s : State) : (deliver r s).replies = s.replies ++ [r] := rfl

/-! ### `takeReset` -/

@[simp] theorem takeReset_cfg  (s : State) : (takeReset s).cfg = s.cfg := rfl
@[simp] theorem takeReset_cmd  (s : State) : (takeReset s).cmd = 0#32 := rfl
@[simp] theorem takeReset_tag  (s : State) : (takeReset s).tag = .idle := rfl
@[simp] theorem takeReset_fovf  (s : State) : (takeReset s).fovf = false := rfl
@[simp] theorem takeReset_fb  (s : State) : (takeReset s).fb = [] := rfl
@[simp] theorem takeReset_p  (s : State) : (takeReset s).p = 0#32 := rfl
@[simp] theorem takeReset_synd  (s : State) : (takeReset s).synd = 0#32 := rfl
@[simp] theorem takeReset_pos  (s : State) : (takeReset s).pos = 0#32 := rfl
@[simp] theorem takeReset_csum  (s : State) : (takeReset s).csum = 0#16 := rfl
@[simp] theorem takeReset_rcsum  (s : State) : (takeReset s).rcsum = 0#16 := rfl
@[simp] theorem takeReset_ob  (s : State) : (takeReset s).ob = [] := rfl
@[simp] theorem takeReset_pending  (s : State) : (takeReset s).pending = s.pending := rfl
@[simp] theorem takeReset_replies  (s : State) : (takeReset s).replies = s.replies := rfl

/-! ### `appendBit`: only `fb` and `fovf` may change (R81) -/

@[simp] theorem appendBit_cfg (b : Bit) (s : State) : (appendBit b s).cfg = s.cfg := by
  unfold appendBit; split <;> rfl
@[simp] theorem appendBit_cmd (b : Bit) (s : State) : (appendBit b s).cmd = s.cmd := by
  unfold appendBit; split <;> rfl
@[simp] theorem appendBit_tag (b : Bit) (s : State) : (appendBit b s).tag = s.tag := by
  unfold appendBit; split <;> rfl
@[simp] theorem appendBit_p (b : Bit) (s : State) : (appendBit b s).p = s.p := by
  unfold appendBit; split <;> rfl
@[simp] theorem appendBit_synd (b : Bit) (s : State) : (appendBit b s).synd = s.synd := by
  unfold appendBit; split <;> rfl
@[simp] theorem appendBit_pos (b : Bit) (s : State) : (appendBit b s).pos = s.pos := by
  unfold appendBit; split <;> rfl
@[simp] theorem appendBit_csum (b : Bit) (s : State) : (appendBit b s).csum = s.csum := by
  unfold appendBit; split <;> rfl
@[simp] theorem appendBit_rcsum (b : Bit) (s : State) : (appendBit b s).rcsum = s.rcsum := by
  unfold appendBit; split <;> rfl
@[simp] theorem appendBit_ob (b : Bit) (s : State) : (appendBit b s).ob = s.ob := by
  unfold appendBit; split <;> rfl
@[simp] theorem appendBit_pending (b : Bit) (s : State) : (appendBit b s).pending = s.pending := by
  unfold appendBit; split <;> rfl
@[simp] theorem appendBit_replies (b : Bit) (s : State) : (appendBit b s).replies = s.replies := by
  unfold appendBit; split <;> rfl

theorem appendBit_fb_of_lt (b : Bit) {s : State} (h : s.fb.length < s.cfg.nmax) :
    (appendBit b s).fb = s.fb ++ [b] := by
  simp [appendBit, frameFull, h]

theorem appendBit_fb_of_le (b : Bit) {s : State} (h : s.cfg.nmax ≤ s.fb.length) :
    (appendBit b s).fb = s.fb := by
  simp [appendBit, frameFull, h]

theorem appendBit_fovf (b : Bit) (s : State) :
    (appendBit b s).fovf = true ↔ s.fovf = true ∨ s.cfg.nmax ≤ s.fb.length := by
  unfold appendBit frameFull; split <;> simp_all

end Sys2Proof.Machine
end

