-- ==== Sys2Proof/Laws/Ops.lean ====
section
/-! SUPPORT. What each shared operation can do, and that each keeps the form of the two buffers.
-/
namespace Sys2Proof.Machine

/-- Appending a bit, said once (R81). -/
theorem appendBit_cases (b : Bit) (s : State) :
    (s.fb.length < s.cfg.nmax ∧ appendBit b s = { s with fb := s.fb ++ [b] }) ∨
    (s.cfg.nmax ≤ s.fb.length ∧ appendBit b s = { s with fovf := true }) := by
  rcases Nat.lt_or_ge s.fb.length s.cfg.nmax with h | h
  · exact .inl ⟨h, by simp [appendBit, frameFull, h]⟩
  · exact .inr ⟨h, by simp [appendBit, frameFull, h]⟩

theorem frameRejected_iff (s : State) : frameRejected s = true ↔ s.fovf = true ∨ s.fb = [] := by
  simp [frameRejected, List.isEmpty_iff]

theorem outputTooLong_iff (s : State) (n : Nat) : outputTooLong s n = true ↔ s.cfg.nmax < n := by
  simp [outputTooLong]

/-- The three-way test (R95). -/
theorem classify_cases (S n : Nat) :
    (S = 0 ∧ classify S n = .noError) ∨
    (0 < S ∧ S < n ∧ classify S n = .corrected S) ∨
    (0 < S ∧ n ≤ S ∧ classify S n = .uncorrectable) := by
  unfold classify
  split
  · exact .inl ⟨by assumption, rfl⟩
  · split
    · exact .inr (.inl ⟨by omega, by assumption, rfl⟩)
    · exact .inr (.inr ⟨by omega, by omega, rfl⟩)

/-! ### `Memory.wf` -/

theorem memory_wf_iff (s : State) :
    Memory.wf s = true ↔ s.fb.length ≤ s.cfg.nmax ∧ s.ob.length ≤ s.cfg.nmax := by
  simp [Memory.wf]

theorem memory_wf_resetWith (cfg : Config) : Memory.wf (State.resetWith cfg) = true := by
  simp [Memory.wf, State.resetWith]

theorem memory_wf_setCmd (w : Word) (s : State) (h : Memory.wf s = true) :
    Memory.wf (setCmd w s) = true := h

theorem memory_wf_result (tag : Tag) (p synd pos csum rcsum : Nat) (out : List Bit) (s : State)
    (h : Memory.wf s = true) (hout : out.length ≤ s.cfg.nmax) :
    Memory.wf (result tag p synd pos csum rcsum out s) = true := by
  rw [memory_wf_iff] at h ⊢
  exact ⟨h.1, hout⟩

theorem memory_wf_raiseTag (tag : Tag) (s : State) (h : Memory.wf s = true) :
    Memory.wf (raiseTag tag s) = true :=
  memory_wf_result tag 0 0 0 0 0 [] s h (Nat.zero_le _)

theorem memory_wf_clearFrame (s : State) (h : Memory.wf s = true) :
    Memory.wf (clearFrame s) = true := by
  rw [memory_wf_iff] at h ⊢
  exact ⟨Nat.zero_le _, h.2⟩

theorem memory_wf_appendBit (b : Bit) (s : State) (h : Memory.wf s = true) :
    Memory.wf (appendBit b s) = true := by
  rcases appendBit_cases b s with ⟨hlt, heq⟩ | ⟨_, heq⟩ <;> rw [heq]
  · rw [memory_wf_iff] at h ⊢
    exact ⟨by simpa using hlt, h.2⟩
  · exact h

theorem memory_wf_deliver (r : Reply) (s : State) (h : Memory.wf s = true) :
    Memory.wf (deliver r s) = true := h

theorem memory_wf_takeReset (s : State) : Memory.wf (takeReset s) = true := by
  simp [Memory.wf, takeReset, State.resetWith]

end Sys2Proof.Machine
end

