-- ==== Sys2Proof/Laws/PerInstr.lean ====
section
/-! SUPPORT. Statements made for every instruction, one lemma per constructor of `Instr`.
-/

/-- The instruction is well-formed, and the row of R64 that carries its mnemonic covers its word, and is
the only row that does. -/
def Sys2Proof.Laws.OwnRow.Statement (i : Sys2Proof.Instr) : Prop :=
  i.wf = true ∧ (opcodeRows.filter fun r => r.covers (encode i)).map (·.mnemonic) = [i.mnemonic]

namespace Sys2Proof.Laws.OwnRow

theorem clr : Statement .clr := by unfold Statement; decide

theorem push (b : Bit) : Statement (.push b) := by
  unfold Statement
  cases b <;> decide

theorem pcnt : Statement .pcnt := by unfold Statement; decide

theorem henc : Statement .henc := by unfold Statement; decide

theorem hdec : Statement .hdec := by unfold Statement; decide

theorem hdecx : Statement .hdecx := by unfold Statement; decide

theorem fgen : Statement .fgen := by unfold Statement; decide

theorem fver : Statement .fver := by unfold Statement; decide

end Sys2Proof.Laws.OwnRow
end

