-- ==== Sys2Proof/Laws/Run.lean ====
section
/-! SUPPORT. Runs: one step more, and the host's own run of the machine is this one.
-/
namespace Sys2Proof.Machine

@[simp] theorem run_zero (s : State) : run 0 s = .next s := rfl

theorem run_succ {k : Nat} {s t : State} (h : step s = .next t) : run (k + 1) s = run k t := by
  rw [run, h]

/-- A run of j + k steps is a run of k steps after one of j. -/
theorem run_add {j k : Nat} {s t : State} (h : run j s = .next t) : run (j + k) s = run k t := by
  induction j generalizing s with
  | zero => simp only [run_zero, Host.Outcome.next.injEq] at h; rw [h, Nat.zero_add]
  | succ j ih =>
    rw [run] at h
    cases hs : step s with
    | next u =>
      rw [hs] at h
      rw [show j + 1 + k = (j + k) + 1 by omega, run_succ hs]
      exact ih h
    | fault r => rw [hs] at h; simp at h
    | refused r => rw [hs] at h; simp at h

theorem coreRun_next {M : Host.Core} {k : Nat} {s t : M.State} (h : M.step s = .next t) :
    M.run (k + 1) s = M.run k t := by
  rw [Host.Core.run, h]

theorem coreRun_fault {M : Host.Core} {k : Nat} {s : M.State} {r : M.Fault}
    (h : M.step s = .fault r) : M.run (k + 1) s = .fault r := by
  rw [Host.Core.run, h]

theorem coreRun_refused {M : Host.Core} {k : Nat} {s : M.State} {r : M.Refusal}
    (h : M.step s = .refused r) : M.run (k + 1) s = .refused r := by
  rw [Host.Core.run, h]

/-- `Host.Core.run` of the machine is `run`. -/
theorem core_run_eq (k : Nat) (s : State) : Host.Core.run Sys2Proof.core k s = run k s := by
  induction k generalizing s with
  | zero => rfl
  | succ k ih =>
    cases hs : step s with
    | next t => rw [run_succ hs]; exact (coreRun_next (M := Sys2Proof.core) hs).trans (ih t)
    | fault r => rw [run, hs]; exact coreRun_fault (M := Sys2Proof.core) hs
    | refused r => rw [run, hs]; exact coreRun_refused (M := Sys2Proof.core) hs

end Sys2Proof.Machine
end

