-- ==== Sys2Proof/Laws/Step.lean ====
section
/-! SUPPORT. What a command and a step can do, said once.
-/
namespace Sys2Proof.Machine

/-- The decoder of HDEC and HDECX, said once: on a non-empty frame (R103, R104). -/
theorem hammingDecode_cases (clean : List Bit) (s : State) :
    (synd s.fb = 0 ∧
      hammingDecode clean s = result .noError (pbc s.fb.length) 0 0 0 0 clean s) ∨
    (0 < synd s.fb ∧ synd s.fb < s.fb.length ∧
      hammingDecode clean s = result .corrected (pbc s.fb.length) (synd s.fb) (synd s.fb) 0 0
        (flipAt s.fb (synd s.fb)) s) ∨
    (0 < synd s.fb ∧ s.fb.length ≤ synd s.fb ∧
      hammingDecode clean s = result .uncorrectable (pbc s.fb.length) (synd s.fb) 0 0 0 [] s) := by
  rcases classify_cases (synd s.fb) s.fb.length with ⟨h, hc⟩ | ⟨h, h', hc⟩ | ⟨h, h', hc⟩
  · exact .inl ⟨h, by simp [hammingDecode, State.len, State.frame, hc]⟩
  · exact .inr (.inl ⟨h, h', by simp [hammingDecode, State.len, State.frame, hc]⟩)
  · exact .inr (.inr ⟨h, h', by simp [hammingDecode, State.len, State.frame, hc]⟩)

/-- What a result of a codec command can be: the rows of spec/10_state.md section 4, read off the frame
and the parameters of the state before. -/
inductive CodecRow (s : State) : Tag → Nat → Nat → Nat → Nat → Nat → List Bit → Prop
  | invalidInput : CodecRow s .invalidInput 0 0 0 0 0 []
  | outputOverflow : CodecRow s .outputOverflow 0 0 0 0 0 []
  | pcnt : CodecRow s .done (pbc s.fb.length) 0 0 0 0 []
  | henc (h : s.fb.length + pbc s.fb.length ≤ s.cfg.nmax) :
      CodecRow s .done (pbc s.fb.length) 0 0 0 0 (hammingEncode s.cfg.extractOrder s.fb)
  | hdecClean (h : synd s.fb = 0) : CodecRow s .noError (pbc s.fb.length) 0 0 0 0 s.fb
  | hdecxClean (h : synd s.fb = 0) :
      CodecRow s .noError (pbc s.fb.length) 0 0 0 0 (pad8 (strip s.cfg.extractOrder s.fb))
  | corrected (h : 0 < synd s.fb) (h' : synd s.fb < s.fb.length) :
      CodecRow s .corrected (pbc s.fb.length) (synd s.fb) (synd s.fb) 0 0 (flipAt s.fb (synd s.fb))
  | uncorrectable (h : 0 < synd s.fb) (h' : s.fb.length ≤ synd s.fb) :
      CodecRow s .uncorrectable (pbc s.fb.length) (synd s.fb) 0 0 0 []
  | fgen (h : s.fb.length + 16 ≤ s.cfg.nmax) :
      CodecRow s .done 0 0 0 (fcs s.fb) 0 (fletcherGen s.fb)
  | fverShort : CodecRow s .checksumMismatch 0 0 0 0 0 []
  | valid (h : fcs (payload s.fb) = val (received s.fb)) :
      CodecRow s .valid 0 0 0 (fcs (payload s.fb)) (val (received s.fb)) (payload s.fb)
  | mismatch (h : fcs (payload s.fb) ≠ val (received s.fb)) :
      CodecRow s .checksumMismatch 0 0 0 (fcs (payload s.fb)) (val (received s.fb)) []

/-- A row does not depend on CMD (R36). -/
theorem CodecRow.of_setCmd {w : Word} {s : State} {tag : Tag} {p S pos c rc : Nat} {out : List Bit}
    (h : CodecRow (setCmd w s) tag p S pos c rc out) : CodecRow s tag p S pos c rc out := by
  cases h with
  | invalidInput => exact .invalidInput
  | outputOverflow => exact .outputOverflow
  | pcnt => exact .pcnt
  | henc h => exact .henc h
  | hdecClean h => exact .hdecClean h
  | hdecxClean h => exact .hdecxClean h
  | corrected h h' => exact .corrected h h'
  | uncorrectable h h' => exact .uncorrectable h h'
  | fgen h => exact .fgen h
  | fverShort => exact .fverShort
  | valid h => exact .valid h
  | mismatch h => exact .mismatch h

theorem hammingDecode_row {clean : List Bit} {s : State}
    (hclean : synd s.fb = 0 → CodecRow s .noError (pbc s.fb.length) 0 0 0 0 clean) :
    ∃ tag p S pos c rc out, CodecRow s tag p S pos c rc out ∧
      hammingDecode clean s = result tag p S pos c rc out s := by
  rcases hammingDecode_cases clean s with ⟨h, heq⟩ | ⟨h, h', heq⟩ | ⟨h, h', heq⟩
  · exact ⟨_, _, _, _, _, _, _, hclean h, heq⟩
  · exact ⟨_, _, _, _, _, _, _, .corrected h h', heq⟩
  · exact ⟨_, _, _, _, _, _, _, .uncorrectable h h', heq⟩

/-- A codec command writes CMD and one row of results, and nothing else (R12, R36). -/
theorem exec_codec_cases (i : Instr) (s : State) (hi : i.isCodec = true) :
    ∃ tag p S pos c rc out, CodecRow s tag p S pos c rc out ∧
      exec i s = .next (result tag p S pos c rc out (setCmd (encode i) s)) := by
  cases i with
  | clr => simp [Instr.isCodec] at hi
  | push b => simp [Instr.isCodec] at hi
  | pcnt =>
    simp only [exec, execPcnt]
    by_cases hf : frameOverflowed (setCmd 0x00000010#32 s) = true
    · exact ⟨_, _, _, _, _, _, _, .invalidInput, by rw [if_pos hf]; rfl⟩
    · exact ⟨_, _, _, _, _, _, _, .pcnt, by rw [if_neg hf]; rfl⟩
  | henc =>
    simp only [exec, execHenc]
    by_cases hf : frameRejected (setCmd 0x00000011#32 s) = true
    · exact ⟨_, _, _, _, _, _, _, .invalidInput, by rw [if_pos hf]; rfl⟩
    by_cases ho : outputTooLong (setCmd 0x00000011#32 s) (s.len + pbc s.len) = true
    · exact ⟨_, _, _, _, _, _, _, .outputOverflow, by rw [if_neg hf]; exact congrArg _ (if_pos ho)⟩
    · have hle := mt (outputTooLong_iff _ _).2 ho
      exact ⟨_, _, _, _, _, _, _, .henc (Nat.le_of_not_lt hle), by
        rw [if_neg hf]; exact congrArg _ (if_neg ho)⟩
  | hdec =>
    simp only [exec, execHdec]
    by_cases hf : frameRejected (setCmd 0x00000012#32 s) = true
    · exact ⟨_, _, _, _, _, _, _, .invalidInput, by rw [if_pos hf]; rfl⟩
    · obtain ⟨tag, p, S, pos, c, rc, out, hrow, heq⟩ :=
        hammingDecode_row (s := setCmd 0x00000012#32 s) (clean := s.fb) .hdecClean
      exact ⟨tag, p, S, pos, c, rc, out, hrow.of_setCmd, by
        rw [if_neg hf]; exact congrArg _ heq⟩
  | hdecx =>
    simp only [exec, execHdecx]
    by_cases hf : frameRejected (setCmd 0x00000013#32 s) = true
    · exact ⟨_, _, _, _, _, _, _, .invalidInput, by rw [if_pos hf]; rfl⟩
    · obtain ⟨tag, p, S, pos, c, rc, out, hrow, heq⟩ :=
        hammingDecode_row (s := setCmd 0x00000013#32 s)
          (clean := pad8 (strip s.cfg.extractOrder s.fb)) .hdecxClean
      exact ⟨tag, p, S, pos, c, rc, out, hrow.of_setCmd, by
        rw [if_neg hf]; exact congrArg _ heq⟩
  | fgen =>
    simp only [exec, execFgen]
    by_cases hf : frameRejected (setCmd 0x00000020#32 s) = true
    · exact ⟨_, _, _, _, _, _, _, .invalidInput, by rw [if_pos hf]; rfl⟩
    by_cases ho : outputTooLong (setCmd 0x00000020#32 s) (s.len + checksumSize) = true
    · exact ⟨_, _, _, _, _, _, _, .outputOverflow, by rw [if_neg hf]; exact congrArg _ (if_pos ho)⟩
    · have hle := mt (outputTooLong_iff _ _).2 ho
      exact ⟨_, _, _, _, _, _, _, .fgen (Nat.le_of_not_lt hle), by
        rw [if_neg hf]; exact congrArg _ (if_neg ho)⟩
  | fver =>
    simp only [exec, execFver]
    by_cases hf : frameRejected (setCmd 0x00000021#32 s) = true
    · exact ⟨_, _, _, _, _, _, _, .invalidInput, by rw [if_pos hf]; rfl⟩
    by_cases hs : (setCmd 0x00000021#32 s).len < checksumSize
    · exact ⟨_, _, _, _, _, _, _, .fverShort, by rw [if_neg hf, if_pos hs]; rfl⟩
    by_cases hc : fcs (payload s.fb) = val (received s.fb)
    · exact ⟨_, _, _, _, _, _, _, .valid hc, by
        rw [if_neg hf, if_neg hs]; exact congrArg _ (if_pos hc)⟩
    · exact ⟨_, _, _, _, _, _, _, .mismatch hc, by
        rw [if_neg hf, if_neg hs]; exact congrArg _ (if_neg hc)⟩

/-- What a command can do: CLR, PUSH, or a row of results (R36). -/
theorem exec_cases (i : Instr) (s : State) :
    (i = .clr ∧ exec i s = .next (clearFrame (setCmd (encode i) s))) ∨
    (∃ b, i = .push b ∧ exec i s = .next (appendBit b (setCmd (encode i) s))) ∨
    (i.isCodec = true ∧ ∃ tag p S pos c rc out, CodecRow s tag p S pos c rc out ∧
      exec i s = .next (result tag p S pos c rc out (setCmd (encode i) s))) := by
  by_cases hi : i.isCodec = true
  · exact .inr (.inr ⟨hi, exec_codec_cases i s hi⟩)
  · cases i with
    | clr => exact .inl ⟨rfl, rfl⟩
    | push b => exact .inr (.inl ⟨b, rfl, by cases b <;> rfl⟩)
    | pcnt => simp [Instr.isCodec] at hi
    | henc => simp [Instr.isCodec] at hi
    | hdec => simp [Instr.isCodec] at hi
    | hdecx => simp [Instr.isCodec] at hi
    | fgen => simp [Instr.isCodec] at hi
    | fver => simp [Instr.isCodec] at hi

/-- What a step can do: nothing to come; a reset; a host read; an ignored write; a command; an illegal
word (R42, R47, R170, R171). -/
theorem step_cases (s : State) :
    (s.pending = [] ∧ step s = .next s) ∨
    (∃ rest, s.pending = .reset :: rest ∧ step s = .next (takeReset { s with pending := rest })) ∨
    (∃ space i rest, s.pending = .read space i :: rest ∧
      step s = .next (deliver (hostRead { s with pending := rest } space i)
        { s with pending := rest })) ∨
    (∃ i w rest, i ≠ 0 ∧ s.pending = .write i w :: rest ∧
      step s = .next { s with pending := rest }) ∨
    (∃ w i rest, s.pending = .write 0 w :: rest ∧ decode w = .command i ∧
      step s = exec i { s with pending := rest }) ∨
    (∃ w why rest, s.pending = .write 0 w :: rest ∧ decode w = .illegal why ∧
      step s = .next (takeIllegalWord w { s with pending := rest })) := by
  rcases hp : s.pending with _ | ⟨e, rest⟩
  · exact .inl ⟨rfl, by simp [step, hp, idle]⟩
  · right
    cases e with
    | reset => exact .inl ⟨rest, rfl, by simp [step, hp, applyEvent]⟩
    | read space i => exact .inr (.inl ⟨space, i, rest, rfl, by simp [step, hp, applyEvent]⟩)
    | write i w =>
      by_cases hi : i = 0
      · subst hi
        cases hd : decode w with
        | command i =>
          exact .inr (.inr (.inr (.inl ⟨w, i, rest, rfl, hd, by
            simp [step, hp, applyEvent, hostWrite, writeCmd, hd]⟩)))
        | illegal why =>
          exact .inr (.inr (.inr (.inr ⟨w, why, rest, rfl, hd, by
            simp [step, hp, applyEvent, hostWrite, writeCmd, hd]⟩)))
      · exact .inr (.inr (.inl ⟨i, w, rest, hi, rfl, by
          simp [step, hp, applyEvent, hostWrite, hi]⟩))

end Sys2Proof.Machine
end

