-- ==== Sys2Proof/Tests/Slice0.lean ====
section
/-! SUPPORT. Tests of the model. The expected values are those of spec/95_test_vectors.md and of the
examples and tables of the rules named; the witnesses show that the hypotheses of the statements can be
met, at the edges of their ranges.
-/
namespace Sys2Proof.Machine.Tests

/-! ### Helpers -/

/-- A bit string written with the digits 0 and 1, first-sent leftmost (R9). -/
def row (digits : List Nat) : List Bit := digits.map (· == 1)

/-- n ones. -/
def ones (n : Nat) : List Bit := List.replicate n true

/-- n zeros. -/
def zeros (n : Nat) : List Bit := List.replicate n false

/-- The block after reset with NMAX = n and this frame loaded. -/
def loaded (n : Nat) (frame : List Bit) : State :=
  { State.resetWith ⟨n, .transmission⟩ with fb := frame }

/-- A block with NMAX = 32 whose frame lost a bit (V-FRAME-8). -/
def overflowed : State := { loaded 32 (ones 32) with fovf := true }

/-- A block whose next event is e. -/
def facing (e : HostEvent) (s : State) : State := { s with pending := [e] }

/-- The next state, if there is one. -/
def next? (o : Host.Outcome State Fault Refusal) : Option State :=
  match o with
  | .next t => some t
  | .fault _ => none
  | .refused _ => none

/-- What a codec command writes: TAG, P, SYND, POS, CSUM, RCSUM, OB. -/
structure Results where
  tag : Tag
  p : Word
  synd : Word
  pos : Word
  csum : BitVec 16
  rcsum : BitVec 16
  ob : List Bit
  deriving DecidableEq, Repr

/-- The result registers and OB of a state. -/
def results (s : State) : Results := ⟨s.tag, s.p, s.synd, s.pos, s.csum, s.rcsum, s.ob⟩

/-- CMD and the frame state. -/
def frameState (s : State) : Word × List Bit × Bool := (s.cmd, s.fb, s.fovf)

/-! ### WellFormed: each check of the parameters refuses a bad value (R5) -/

theorem test_config_reference : Config.reference.wf = true := by decide

theorem test_config_smallest_and_largest :
    Config.wf ⟨32, .transmission⟩ = true ∧ Config.wf ⟨2 ^ 30, .reversed⟩ = true := by decide

theorem test_config_refuses_too_small : Config.wf ⟨24, .transmission⟩ = false := by decide

theorem test_config_refuses_too_large : Config.wf ⟨2 ^ 30 + 8, .transmission⟩ = false := by decide

theorem test_config_refuses_not_whole_chunks : Config.wf ⟨39, .transmission⟩ = false := by decide

/-- An instruction has no field that could be wrong: the one operand is one bit (R63). -/
theorem test_instr_wf_push : Instr.wf (.push false) = true ∧ Instr.wf (.push true) = true := by decide

/-! ### Decoding: words written out from R61, R62 and R64 -/

theorem test_decode_clr : decode 0b00000000000000000000000000000001#32 = .command .clr := by decide

theorem test_decode_push_0 :
    decode 0b00000000000000000000000000000010#32 = .command (.push false) := by decide

theorem test_decode_push_1 :
    decode 0b00000000000000000000000100000010#32 = .command (.push true) := by decide

theorem test_decode_pcnt : decode 0b00000000000000000000000000010000#32 = .command .pcnt := by decide

theorem test_decode_henc : decode 0b00000000000000000000000000010001#32 = .command .henc := by decide

theorem test_decode_hdec : decode 0b00000000000000000000000000010010#32 = .command .hdec := by decide

theorem test_decode_hdecx : decode 0b00000000000000000000000000010011#32 = .command .hdecx := by decide

theorem test_decode_fgen : decode 0b00000000000000000000000000100000#32 = .command .fgen := by decide

theorem test_decode_fver : decode 0b00000000000000000000000000100001#32 = .command .fver := by decide

/-- V-ILL-1 to V-ILL-5: opcodes that no row has. -/
theorem test_decode_unassigned :
    decode 0x00000000#32 = .illegal (.unassignedOpcode 0x00#8) ∧
    decode 0x00000003#32 = .illegal (.unassignedOpcode 0x03#8) ∧
    decode 0x00000014#32 = .illegal (.unassignedOpcode 0x14#8) ∧
    decode 0x00000022#32 = .illegal (.unassignedOpcode 0x22#8) ∧
    decode 0x000000FF#32 = .illegal (.unassignedOpcode 0xFF#8) := by decide

/-- V-ILL-6 to V-ILL-8: bit 8 set outside PUSH. -/
theorem test_decode_operand_bit :
    decode 0x00000101#32 = .illegal .operandBitSet ∧
    decode 0x00000110#32 = .illegal .operandBitSet ∧
    decode 0x00000112#32 = .illegal .operandBitSet := by decide

/-- V-ILL-9 to V-ILL-12: an upper bit set. -/
theorem test_decode_upper_bits :
    decode 0x00000202#32 = .illegal .upperBitsSet ∧
    decode 0x00010002#32 = .illegal .upperBitsSet ∧
    decode 0x80000012#32 = .illegal .upperBitsSet ∧
    decode 0xFFFFFFFF#32 = .illegal .upperBitsSet := by decide

theorem test_decodeTableWord :
    decodeTableWord 32 0x102 = some (.push true) ∧ decodeTableWord 8 0x102 = some (.push false) ∧
    decodeTableWord 32 0x202 = none ∧ decodeTableWord 64 0x100000001 = none := by decide

/-! ### One command, one step: CLR and PUSH (R80, R81) -/

/-- The example of R80, with what it keeps. -/
theorem test_clr :
    (next? (exec .clr { loaded 32 (ones 32) with fovf := true, tag := .noError, ob := ones 2 })).map
      (fun t => (frameState t, t.tag, t.ob)) =
    some ((0x00000001#32, [], false), .noError, ones 2) := by decide

/-- V-FRAME-5: cells 0 and 1 are out of use. -/
theorem test_clr_cells :
    (next? (exec .clr (loaded 4096 (row [1, 0])))).map (fun t => (readFB t 0, readFB t 1)) =
    some (false, false) := by decide

/-- The last PUSH of V-FRAME-3: the new bit goes to the end, index 3. -/
theorem test_push :
    (next? (exec (.push true) (loaded 4096 (row [1, 0, 1])))).map
      (fun t => (frameState t, readFB t 3, bitAt t.fb 1, bitAt t.fb 3)) =
    some ((0x00000102#32, row [1, 0, 1, 1], false), true, true, false) := by decide

/-- V-FRAME-8 and V-FRAME-9: into a full buffer the bit is dropped. -/
theorem test_push_overflow :
    (next? (exec (.push false) (loaded 32 (ones 32)))).map frameState =
    some (0x00000002#32, ones 32, true) := by decide

/-! ### The Hamming commands -/

/-- V-PCNT-1, V-PCNT-6: an empty frame and seven bits. -/
theorem test_pcnt :
    (next? (exec .pcnt (loaded 4096 []))).map results = some ⟨.done, 0, 0, 0, 0, 0, []⟩ ∧
    (next? (exec .pcnt (loaded 4096 (zeros 7)))).map results = some ⟨.done, 4, 0, 0, 0, 0, []⟩ := by
  decide

/-- V-PCNT-21, V-PCNT-22. -/
theorem test_pcnt_overflowed_and_full :
    (next? (exec .pcnt overflowed)).map results = some ⟨.invalidInput, 0, 0, 0, 0, 0, []⟩ ∧
    (next? (exec .pcnt (loaded 32 (zeros 32)))).map results = some ⟨.done, 6, 0, 0, 0, 0, []⟩ := by
  decide

/-- V-HENC-8. -/
theorem test_henc :
    (next? (exec .henc (loaded 4096 (row [0, 1, 0, 0, 0, 0, 0, 1])))).map results =
    some ⟨.done, 4, 0, 0, 0, 0, row [0, 1, 0, 0, 1, 0, 0, 0, 0, 1, 0, 0]⟩ := by decide

/-- V-HENC-15; and the other reading of EXTRACT_ORDER, from the end of section 2.3 there. -/
theorem test_henc_overflow_and_reversed :
    (next? (exec .henc (loaded 32 (ones 27)))).map results = some ⟨.outputOverflow, 0, 0, 0, 0, 0, []⟩ ∧
    hammingEncode .reversed (row [1, 0, 1, 1]) = row [1, 1, 0, 0, 1, 1, 0] := by decide

/-- V-HDEC-18 and V-HDEC-15: positions 11 and 12 of 12. -/
theorem test_hdec_single_error :
    (next? (exec .hdec (loaded 4096 (row [0, 0, 0, 0, 1, 0, 0, 0, 0, 1, 0, 0])))).map results =
    some ⟨.corrected, 5, 11, 11, 0, 0, row [0, 1, 0, 0, 1, 0, 0, 0, 0, 1, 0, 0]⟩ ∧
    (next? (exec .hdec (loaded 4096 (row [1, 1, 0, 0, 1, 0, 0, 0, 0, 1, 0, 0])))).map results =
    some ⟨.uncorrectable, 5, 12, 0, 0, 0, []⟩ := by decide

/-- V-HDEC-9 and V-HDEC-13: two and three errors, answered wrong as R108 says. -/
theorem test_hdec_many_errors :
    (next? (exec .hdec (loaded 4096 (row [1, 0, 1, 0, 1, 1, 0])))).map results =
    some ⟨.corrected, 4, 3, 3, 0, 0, row [1, 0, 1, 0, 0, 1, 0]⟩ ∧
    (next? (exec .hdec (loaded 4096 (row [1, 0, 1, 0, 0, 1, 0])))).map results =
    some ⟨.noError, 4, 0, 0, 0, 0, row [1, 0, 1, 0, 0, 1, 0]⟩ := by decide

/-- V-HDECX-1 and V-HDECX-7: padding on the right; no data position. -/
theorem test_hdecx :
    (next? (exec .hdecx (loaded 4096 (row [1, 0, 1, 0, 1, 0, 1])))).map results =
    some ⟨.noError, 4, 0, 0, 0, 0, row [1, 0, 1, 1, 0, 0, 0, 0]⟩ ∧
    (next? (exec .hdecx (loaded 4096 (row [0, 0])))).map results =
    some ⟨.noError, 3, 0, 0, 0, 0, []⟩ := by decide

/-- V-HDECX-11; and the code points of V-HDECX-5. -/
theorem test_hdecx_corrected_and_text :
    (next? (exec .hdecx (loaded 4096 (row [1, 0, 1, 0, 0, 0, 1])))).map results =
    some ⟨.corrected, 4, 3, 3, 0, 0, row [1, 0, 1, 0, 1, 0, 1]⟩ ∧
    codePoints (row [0, 1, 0, 0, 1, 0, 0, 0, 0, 1, 1, 0, 1, 0, 0, 1]) = [72, 105] := by decide

/-! ### The Fletcher commands -/

/-- V-FGEN-1. -/
theorem test_fgen :
    (next? (exec .fgen (loaded 4096 (row [1, 0, 1, 0, 1, 0, 1])))).map results =
    some ⟨.done, 0, 0, 0, 0x1004, 0,
      row [1, 0, 1, 0, 1, 0, 1, 0, 0, 0, 1, 0, 0, 0, 0, 0, 0, 0, 0, 0, 1, 0, 0]⟩ := by decide

/-- V-FGEN-13: sum2 is reduced modulo 255 on the way. -/
theorem test_fgen_reduces :
    (next? (exec .fgen (loaded 4096 (ones 30)))).map results =
    some ⟨.done, 0, 0, 0, 0xD21E, 0,
      ones 30 ++ row [1, 1, 0, 1, 0, 0, 1, 0, 0, 0, 0, 1, 1, 1, 1, 0]⟩ := by decide

/-- V-FVER-1 and V-FVER-2. -/
theorem test_fver :
    (next? (exec .fver (loaded 4096
      (row [1, 0, 1, 0, 1, 0, 1, 0, 0, 0, 1, 0, 0, 0, 0, 0, 0, 0, 0, 0, 1, 0, 0])))).map results =
    some ⟨.valid, 0, 0, 0, 0x1004, 0x1004, row [1, 0, 1, 0, 1, 0, 1]⟩ ∧
    (next? (exec .fver (loaded 4096
      (row [0, 0, 1, 0, 1, 0, 1, 0, 0, 0, 1, 0, 0, 0, 0, 0, 0, 0, 0, 0, 1, 0, 0])))).map results =
    some ⟨.checksumMismatch, 0, 0, 0, 0x0903, 0x1004, []⟩ := by decide

/-- V-FVER-4, V-FVER-6 and V-FVER-8: lengths 16, 16 and 15. -/
theorem test_fver_short :
    (next? (exec .fver (loaded 4096 (zeros 16)))).map results = some ⟨.valid, 0, 0, 0, 0, 0, []⟩ ∧
    (next? (exec .fver (loaded 4096 (ones 16)))).map results =
      some ⟨.checksumMismatch, 0, 0, 0, 0, 0xFFFF, []⟩ ∧
    (next? (exec .fver (loaded 4096 (zeros 15)))).map results =
      some ⟨.checksumMismatch, 0, 0, 0, 0, 0, []⟩ := by decide

/-! ### The host's side -/

/-- V-ILL-6 through a step: the result is lost, the frame stays. -/
theorem test_illegal_word :
    (next? (step (facing (.write 0 0x00000101#32)
      { loaded 4096 (row [1, 0]) with tag := .noError, p := 3, ob := row [1, 0] }))).map
      (fun t => (results t, frameState t)) =
    some (⟨.illegalCommand, 0, 0, 0, 0, 0, []⟩, (0x00000101#32, row [1, 0], false)) := by decide

/-- V-REG-8: STATUS reads TAG 7 and FOVF 1. -/
theorem test_status_word : readReg { overflowed with tag := .invalidInput } 1 = 0x00000017#32 := by
  decide

/-- V-REG-7: SUM2 lies above SUM1. -/
theorem test_csum_register :
    readReg { loaded 4096 [] with csum := 0x1004#16 } 7 = 0x00001004#32 := by decide

/-- V-REG-9, V-REG-10: indexes that are no register, and a write that is ignored. -/
theorem test_other_registers :
    readReg overflowed 9 = 0 ∧
    (next? (step (facing (.write 1 0x00000001#32) overflowed))).map frameState =
      some (0, ones 32, true) := by decide

/-- A read is answered and changes nothing of the block (R44). -/
theorem test_host_read :
    next? (step (facing (.read .ob 1) { loaded 32 [] with ob := row [0, 1] })) =
    some { loaded 32 [] with ob := row [0, 1], replies := [.cell true] } := by decide

/-- The step runs the word that `withFetchWord` placed. -/
theorem test_withFetchWord :
    (next? (step (State.reset.withFetchWord 32 0x102))).map frameState =
    some (0x00000102#32, [true], false) := by decide

/-- A listing of R70's syntax: comments, APPEND, WORD, and a line that is no line of it. -/
theorem test_assembler :
    parseLine ['P', 'U', 'S', 'H', ' ', '1', ' ', ';', 'x'] = some (.command (.push true)) ∧
    parseLine ['A', 'P', 'P', 'E', 'N', 'D', ' ', '"', '0', '1', '"'] = some (.append (row [0, 1])) ∧
    parseLine ['W', 'O', 'R', 'D', ' ', '0', 'x', '0', '0', '0', '0', '0', '2', '0', 'F'] =
      some (.word 0x0000020F#32) ∧
    parseLine ['P', 'U', 'S', 'H', ' ', '2'] = none := by decide

/-! ### Witnesses: concrete states and operands that meet the hypotheses of the statements -/

theorem witness_DecoderFollowsOpcodeMap :
    ((0x00000200#32 : Word).toNat / 2 ^ 9 ≠ 0 ∧
      ((0x00000102#32 : Word).toNat / 2 ^ 9 = 0 ∧ (0x00000102#32 : Word).toNat % 256 = 0x02) ∧
      ((0x000001FF#32 : Word).toNat / 2 ^ 9 = 0 ∧ (0x000001FF#32 : Word).toNat % 256 ≠ 0x02 ∧
        (0x000001FF#32 : Word).toNat / 256 % 2 = 1) ∧
      ((0x000000FF#32 : Word).toNat / 2 ^ 9 = 0 ∧ (0x000000FF#32 : Word).toNat % 256 ≠ 0x02 ∧
        (0x000000FF#32 : Word).toNat / 256 % 2 = 0 ∧
        (0x000000FF#32 : Word).toNat % 256 ∉ [0x01, 0x10, 0x11, 0x12, 0x13, 0x20, 0x21])) ∧
    (∃ r ∈ opcodeRows, r.mnemonic = "PUSH" ∧ 0x00000102#32 &&& r.mask = r.pattern) ∧
    decode 0x00000021#32 = .command .fver := by decide

theorem witness_DecodeEncodeInverse :
    (Instr.push true).wf = true ∧ decode 0x00000102#32 = .command (.push true) := by decide

theorem witness_StepRunsDecodedCommand :
    (State.reset.withFetchWord 32 0x10).pending = .write 0 0x00000010#32 :: [] ∧
    decode 0x00000010#32 = .command .pcnt := by decide

theorem witness_NothingRunsWithoutHost : State.reset.pending = [] := by decide

theorem witness_IllegalWordResult :
    (facing (.write 0 0x00000003#32) overflowed).pending = .write 0 0x00000003#32 :: [] ∧
    0x00000003#32 ∉ [0x00000001#32, 0x00000002#32, 0x00000102#32, 0x00000010#32, 0x00000011#32,
      0x00000012#32, 0x00000013#32, 0x00000020#32, 0x00000021#32] := by decide

theorem witness_HostReadsRegisters :
    (facing (.read .reg 8) overflowed).pending = .read .reg 8 :: [] ∧ 9 ≤ 9 := by decide

/-- The last cell in use and the first that is not. -/
theorem witness_HostReadsBufferCells :
    (facing (.read .fb 31) overflowed).pending = .read .fb 31 :: [] ∧ 31 < overflowed.fb.length ∧
    (facing (.read .ob 0) overflowed).pending = .read .ob 0 :: [] ∧ ¬ 0 < overflowed.ob.length := by
  decide

theorem witness_OnlyCmdWritesChangeTheBlock :
    ((facing (.write 1 7) overflowed).pending = .write 1 7 :: [] ∧ (1 : Nat) ≠ 0) ∧
    (facing (.write 0 0x00000012#32) overflowed).pending = .write 0 0x00000012#32 :: [] ∧
    (facing (.read .reg 0) overflowed).pending = .read .reg 0 :: [] := by decide

theorem witness_ResetStateValues :
    (Instr.isCodec .fver = true ∧ Instr.fver ≠ .pcnt) ∧
    (next? (exec (.push true) State.reset)).map State.tag = some .idle := by decide

theorem witness_ResetEventRestoresReset :
    (facing .reset overflowed).pending = .reset :: [] := by decide

/-- One cell free; none free. -/
theorem witness_PushAppendsOrOverflows :
    ((loaded 32 (ones 31)).fb.length < (loaded 32 (ones 31)).cfg.nmax ∧
      30 ≠ (loaded 32 (ones 31)).fb.length) ∧
    overflowed.cfg.nmax ≤ overflowed.fb.length := by decide

/-- Loading one bit; appending one bit to a full frame. -/
theorem witness_LoadDeliversFrame :
    { overflowed with pending := [.write 0 0x00000001#32, .write 0 0x00000102#32] }.pending =
      (HostEvent.write 0 0x00000001#32 ::
        [true].map fun b => .write 0 (if b then 0x00000102#32 else 0x00000002#32)) ++ [] ∧
    { overflowed with pending := [.write 0 0x00000002#32, .reset] }.pending =
      ([false].map fun b =>
        HostEvent.write 0 (if b then 0x00000102#32 else 0x00000002#32)) ++ [.reset] ∧
    overflowed.fb.length ≤ overflowed.cfg.nmax := by decide

/-- The edges of the table of R90: the longest L for 4 and the shortest for 5. -/
theorem witness_ParityBitCountIsLeast :
    (11 + 4 + 1 ≤ 2 ^ 4) ∧ (5 ≤ 11 ∧ 11 ≤ 11 ∧ pbc 11 = 4) ∧ (12 ≤ 12 ∧ 12 ≤ 26 ∧ pbc 12 = 5) ∧
    (2 ≤ 4 ∧ pbc 4 = 3) ∧ (27 ≤ 57 ∧ pbc 57 = 6) ∧ (58 ≤ 58 ∧ pbc 58 = 7) ∧
    (121 ≤ 247 ∧ pbc 247 = 8) ∧ (248 ≤ 248 ∧ pbc 248 = 9) ∧ (503 ≤ 503 ∧ pbc 503 = 10) := by decide

theorem witness_ParityBitCountLaws :
    11 ≤ 12 ∧ pbc 11 ≤ pbc 12 ∧ 2 ≤ 4 ∧ pbc 11 = 4 ∧ 12 < 2 ^ pbc 12 ∧ 1 ≤ 1 ∧ 2 ^ (pbc 1 - 1) < 1 + pbc 1 := by decide

theorem witness_CodewordLayout :
    1 ≤ 4 ∧ 1 ≤ 7 ∧ 7 ≤ 4 + pbc 4 ∧ npar 7 = 3 ∧ ndata 7 = 4 ∧ pow2 7 = false ∧ pow2 4 = true := by
  decide

/-- R93's worked syndrome (V-HDEC-4), with the last column. -/
theorem witness_SyndromeIsColumnProcedure :
    row [1, 0, 1, 0, 0, 0, 1] ≠ [] ∧ 3 < pbc (row [1, 0, 1, 0, 0, 0, 1]).length ∧
    synd (row [1, 0, 1, 0, 0, 0, 1]) = 3 ∧ syndFromColumns (row [1, 0, 1, 0, 0, 0, 1]) 4 = 3 := by decide

theorem witness_SyndromeRangeAndLinearity :
    1 ≤ 7 ∧ 7 ≤ (row [1, 0, 1, 0, 0, 0, 1]).length ∧
    synd (flipAt (row [1, 0, 1, 0, 0, 0, 1]) 7) = 3 ^^^ 7 := by decide

/-- Flipping the first-sent bit; a frame that is corrected. -/
theorem witness_CorrectorFlipsOneBit :
    (1 ≤ 7 ∧ 7 ≤ (row [1, 0, 1, 0, 0, 0, 1]).length ∧ 0 < (row [1, 0, 1, 0, 0, 0, 1]).length) ∧
    0 < synd (row [1, 0, 1, 0, 0, 0, 1]) ∧
    synd (row [1, 0, 1, 0, 0, 0, 1]) < (row [1, 0, 1, 0, 0, 0, 1]).length := by decide

theorem witness_StripAndPad :
    (row [1, 0, 1, 1]).length ≤ 4 ∧ 0 < ((row [1, 0, 1, 1]).length + 7) / 8 ∧
    (pad8 (row [1, 0, 1, 1])).getD 4 true = false ∧
    strip .transmission (row [1, 0, 1, 0, 1, 0, 1]) = row [1, 0, 1, 1] := by decide

/-- A full frame, whose count is 6; an overflowed one. -/
theorem witness_PcntResult :
    ((loaded 32 (zeros 32)).fovf = false ∧ (loaded 32 (zeros 32)).fb.length + 6 + 1 ≤ 2 ^ 6 ∧
      ∀ q, q < 6 → 2 ^ q < (loaded 32 (zeros 32)).fb.length + q + 1) ∧
    overflowed.fovf = true := by decide

/-- With NMAX = 40: 34 data bits make a codeword of 40 bits, 35 data bits one of 41. -/
theorem witness_HencYieldsTheCodeword :
    ((loaded 40 (ones 34)).fovf = false ∧ (loaded 40 (ones 34)).fb ≠ [] ∧
      (loaded 40 (ones 34)).fb.length + pbc (loaded 40 (ones 34)).fb.length =
        (loaded 40 (ones 34)).cfg.nmax) ∧
    (overflowed.fovf = true ∧ (loaded 32 []).fb = []) ∧
    ((loaded 40 (ones 35)).fovf = false ∧ (loaded 40 (ones 35)).fb ≠ [] ∧
      (loaded 40 (ones 35)).cfg.nmax + 1 =
        (loaded 40 (ones 35)).fb.length + pbc (loaded 40 (ones 35)).fb.length) := by decide

/-- Syndromes 0, 1, n - 1 and n of frames of 7 bits; the two refused frames. -/
theorem witness_HdecResult :
    ((loaded 32 (row [1, 0, 1, 0, 1, 0, 1])).fovf = false ∧
      (loaded 32 (row [1, 0, 1, 0, 1, 0, 1])).fb ≠ [] ∧
      synd (loaded 32 (row [1, 0, 1, 0, 1, 0, 1])).fb = 0) ∧
    synd (loaded 32 (row [1, 0, 1, 0, 1, 0, 0])).fb = 1 ∧
    synd (loaded 32 (row [1, 1, 1, 0, 1, 0, 1])).fb + 1 =
      (loaded 32 (row [1, 1, 1, 0, 1, 0, 1])).fb.length ∧
    (loaded 32 (row [0, 0, 1, 0, 1, 0, 1])).fb.length = synd (loaded 32 (row [0, 0, 1, 0, 1, 0, 1])).fb ∧
    overflowed.fovf = true ∧ (loaded 32 []).fb = [] := by decide

/-- As for HDEC, and a full frame, whose text of 26 bits is padded to NMAX bits. -/
theorem witness_HdecxResult :
    ((loaded 32 (zeros 32)).fovf = false ∧ (loaded 32 (zeros 32)).fb ≠ [] ∧
      synd (loaded 32 (zeros 32)).fb = 0 ∧ (loaded 32 (zeros 32)).cfg.wf = true ∧
      (loaded 32 (zeros 32)).fb.length ≤ (loaded 32 (zeros 32)).cfg.nmax ∧
      (pad8 (strip .transmission (zeros 32))).length = 32) ∧
    (0 < synd (loaded 32 (row [0, 1])).fb ∧
      synd (loaded 32 (row [0, 1])).fb < (loaded 32 (row [0, 1])).fb.length) ∧
    (loaded 32 (row [1, 0])).fb.length ≤ synd (loaded 32 (row [1, 0])).fb ∧
    overflowed.fovf = true ∧ (loaded 32 []).fb = [] := by decide

/-- The longest data string for NMAX = 40, and what HENC makes of "1011". -/
theorem witness_DecodeUndoesEncode :
    ((loaded 40 (ones 34)).fovf = false ∧ (loaded 40 (ones 34)).fb ≠ [] ∧
      (loaded 40 (ones 34)).fb.length + pbc (loaded 40 (ones 34)).fb.length ≤
        (loaded 40 (ones 34)).cfg.nmax) ∧
    (loaded 40 []).cfg = (loaded 40 (row [1, 0, 1, 1])).cfg ∧ (loaded 40 []).fovf = false ∧
    (next? (exec .henc (loaded 40 (row [1, 0, 1, 1])))).map State.ob =
      some (loaded 40 (row [1, 0, 1, 0, 1, 0, 1])).fb := by decide

/-- Positions 1, n - 1 and n of a codeword of 7 bits. -/
theorem witness_SingleErrorIsLocated :
    (loaded 32 []).cfg.wf = true ∧ (row [1, 0, 1, 0, 1, 0, 1]).length ≤ (loaded 32 []).cfg.nmax ∧
    (loaded 32 []).fovf = false ∧ synd (row [1, 0, 1, 0, 1, 0, 1]) = 0 ∧
    (loaded 32 (row [1, 0, 1, 0, 1, 0, 0])).fb = flipAt (row [1, 0, 1, 0, 1, 0, 1]) 1 ∧
    (loaded 32 (row [1, 1, 1, 0, 1, 0, 1])).fb = flipAt (row [1, 0, 1, 0, 1, 0, 1]) 6 ∧
    (loaded 32 (row [0, 0, 1, 0, 1, 0, 1])).fb = flipAt (row [1, 0, 1, 0, 1, 0, 1]) 7 := by decide

/-- V-HDEC-9 and V-HDEC-10: two flips that are miscorrected, two that are signalled; V-HDEC-13: three that
pass. -/
theorem witness_ManyErrorsAreClassified :
    (loaded 32 []).cfg.wf = true ∧ (row [1, 0, 1, 0, 1, 0, 1]).length ≤ (loaded 32 []).cfg.nmax ∧
    (loaded 32 []).fovf = false ∧ row [1, 0, 1, 0, 1, 0, 1] ≠ [] ∧
    synd (row [1, 0, 1, 0, 1, 0, 1]) = 0 ∧ (∀ k ∈ [1, 2], 1 ≤ k ∧ k ≤ 7) ∧
    (loaded 32 (row [1, 0, 1, 0, 1, 1, 0])).fb = [1, 2].foldl flipAt (row [1, 0, 1, 0, 1, 0, 1]) ∧
    (loaded 32 (row [1, 0, 1, 1, 0, 0, 1])).fb = [3, 4].foldl flipAt (row [1, 0, 1, 0, 1, 0, 1]) ∧
    (loaded 32 (row [1, 0, 1, 0, 0, 1, 0])).fb = [1, 2, 3].foldl flipAt (row [1, 0, 1, 0, 1, 0, 1]) := by
  decide

theorem witness_CorrectedFrameDecodesClean :
    (loaded 32 (row [1, 0, 1, 0, 0, 0, 1])).fovf = false ∧
    0 < synd (loaded 32 (row [1, 0, 1, 0, 0, 0, 1])).fb ∧
    synd (loaded 32 (row [1, 0, 1, 0, 0, 0, 1])).fb < (loaded 32 (row [1, 0, 1, 0, 0, 0, 1])).fb.length ∧
    (next? (exec .hdec (loaded 32 (row [1, 0, 1, 0, 0, 0, 1])))).map State.ob =
      some (loaded 32 (row [1, 0, 1, 0, 1, 0, 1])).fb := by decide

/-- With NMAX = 32: 16 payload bits fit exactly, 17 do not. -/
theorem witness_FgenAppendsChecksum :
    ((loaded 32 (ones 16)).fovf = false ∧ (loaded 32 (ones 16)).fb ≠ [] ∧
      (loaded 32 (ones 16)).fb.length + 16 = (loaded 32 (ones 16)).cfg.nmax ∧
      fsum (loaded 32 (ones 16)).fb = (16, 136)) ∧
    (overflowed.fovf = true ∧ (loaded 32 []).fb = []) ∧
    ((loaded 32 (ones 17)).fovf = false ∧ (loaded 32 (ones 17)).fb ≠ [] ∧
      (loaded 32 (ones 17)).cfg.nmax + 1 = (loaded 32 (ones 17)).fb.length + 16) := by decide

/-- Frames of 16 bits, valid and not, of 15 bits, and the two refused frames. -/
theorem witness_FverResult :
    ((loaded 32 (zeros 16)).fovf = false ∧ (loaded 32 (zeros 16)).fb = [] ++ zeros 16 ∧
      (zeros 16).length = 16 ∧ fcs [] = val (zeros 16)) ∧
    ((loaded 32 (ones 16)).fb = [] ++ ones 16 ∧ (ones 16).length = 16 ∧ fcs [] ≠ val (ones 16)) ∧
    ((loaded 32 (zeros 15)).fovf = false ∧ (loaded 32 (zeros 15)).fb ≠ [] ∧
      (loaded 32 (zeros 15)).fb.length < 16) ∧
    overflowed.fovf = true ∧ (loaded 32 []).fb = [] := by decide

theorem witness_FletcherRoundTrip :
    (loaded 32 (ones 16)).fovf = false ∧ (loaded 32 (ones 16)).fb ≠ [] ∧
    (loaded 32 (ones 16)).fb.length + 16 ≤ (loaded 32 (ones 16)).cfg.nmax ∧
    (next? (exec .fgen (loaded 32 (ones 16)))).map State.ob =
      some (loaded 32 (ones 16 ++ row [1, 0, 0, 0, 1, 0, 0, 0, 0, 0, 0, 1, 0, 0, 0, 0])).fb := by decide

/-- V-FVER-3 and V-FVER-2 in small: a changed checksum bit, a flipped payload bit; V-FVER-14: 255 ones
with the checksum of the payload "0". -/
theorem witness_FletcherDetection :
    ((loaded 32 (ones 16)).fovf = false ∧ (ones 16).length = 16 ∧ ones 16 ≠ bitsOf 16 (fcs []) ∧
      (loaded 32 (ones 16)).fb = [] ++ ones 16) ∧
    (0 < [true].length ∧ (loaded 32 (row [0, 0, 0, 0, 0, 0, 0, 0, 1, 0, 0, 0, 0, 0, 0, 0, 1])).fb =
      [true].set 0 (!([true][0])) ++ bitsOf 16 (fcs [true])) ∧
    ((loaded 512 (ones 255 ++ zeros 16)).fovf = false ∧ fcs (ones 255) = fcs (zeros 1) ∧
      (loaded 512 (ones 255 ++ zeros 16)).fb = ones 255 ++ bitsOf 16 (fcs (zeros 1))) ∧
    (ones 255).countP id % 255 = (zeros 1).countP id % 255 ∧
    ((List.range 255).map fun k => if (ones 255).getD k false then 255 - k else 0).sum % 255 =
      ((List.range 1).map fun k => if (zeros 1).getD k false then 1 - k else 0).sum % 255 := by
  decide +kernel

theorem witness_InvalidInputExactly :
    Instr.isCodec .pcnt = true ∧ overflowed.fovf = true ∧
    Instr.isCodec .hdec = true ∧ (loaded 32 []).fb = [] ∧ Instr.hdec ≠ .pcnt ∧
    (next? (exec .hdec (loaded 32 []))).map State.tag = some .invalidInput := by decide

theorem witness_OutputOverflowExactly :
    Instr.isCodec .henc = true ∧ (loaded 32 (ones 27)).fovf = false ∧ (loaded 32 (ones 27)).fb ≠ [] ∧
    (loaded 32 (ones 27)).fb.length + pbc (loaded 32 (ones 27)).fb.length >
      (loaded 32 (ones 27)).cfg.nmax ∧
    Instr.isCodec .fgen = true ∧ (loaded 32 (ones 17)).fb.length + 16 > (loaded 32 (ones 17)).cfg.nmax ∧
    (next? (exec .fgen (loaded 32 (ones 17)))).map State.tag = some .outputOverflow := by decide

/-- V-HENC-16: FOVF wins over the output that would not fit. -/
theorem witness_TagPriority :
    (facing (.write 0 0x00000011#32) overflowed).pending = .write 0 0x00000011#32 :: [] ∧
    (next? (step (facing (.write 0 0x00000011#32) overflowed))).map State.tag = some .invalidInput := by
  decide

theorem witness_NothingStopsTheBlock :
    (facing (.write 0 0xFFFFFFFF#32) overflowed).pending = .write 0 0xFFFFFFFF#32 :: [] := by decide

theorem witness_ResetMeetsInvariant : Config.wf ⟨32, .reversed⟩ = true := by decide

/-- After the reset state, which meets the invariant (R37). -/
theorem test_reset_inv : State.reset.Inv := by decide

/-- A step of HDEC from a loaded frame, before and after. -/
theorem witness_StepKeepsInvariant :
    (facing (.write 0 0x00000012#32) (loaded 32 (row [1, 0, 1, 0, 0, 0, 1]))).Inv ∧
    step (facing (.write 0 0x00000012#32) (loaded 32 (row [1, 0, 1, 0, 0, 0, 1]))) =
      .next { loaded 32 (row [1, 0, 1, 0, 0, 0, 1]) with
        cmd := 0x00000012#32, tag := .corrected, p := 4, synd := 3, pos := 3,
        ob := row [1, 0, 1, 0, 1, 0, 1] } := ⟨by decide, rfl⟩

/-- Two states that differ in every result register. -/
theorem witness_ResultsDependOnFrameOnly :
    overflowed.cfg = { overflowed with tag := .valid, csum := 7, rcsum := 7, ob := ones 1 }.cfg ∧
    overflowed.fb = { overflowed with tag := .valid, csum := 7, rcsum := 7, ob := ones 1 }.fb ∧
    overflowed.fovf = { overflowed with tag := .valid, csum := 7, rcsum := 7, ob := ones 1 }.fovf ∧
    overflowed ≠ { overflowed with tag := .valid, csum := 7, rcsum := 7, ob := ones 1 } ∧
    Instr.isCodec .henc = true := by decide

/-- The frame changed, FOVF cleared, FOVF set, a result changed. -/
theorem witness_WhoWritesWhat :
    ((next? (step (facing (.write 0 0x00000001#32) overflowed))).map fun t =>
      (t.fb != overflowed.fb, t.fovf)) = some (true, false) ∧
    ((next? (step (facing (.write 0 0x00000002#32) (loaded 32 (ones 32))))).map fun t => t.fovf) =
      some true ∧
    ((next? (step (facing (.write 0 0x00000010#32) overflowed))).map fun t =>
      results t != results overflowed) = some true := by decide

theorem witness_IdleOnlyFromReset :
    step (facing .reset { overflowed with tag := .valid }) = .next (loaded 32 []) ∧
    (loaded 32 []).tag = .idle ∧
    (facing .reset { overflowed with tag := .valid }).pending = .reset :: [] := ⟨rfl, by decide, by decide⟩

/-- A frame of 16 bits, enough for every clause: with NMAX = 32, HENC's output has 21 bits and FGEN's
has 32. -/
theorem witness_RegistersHoldTheirNumbers :
    (loaded 32 (ones 16)).Inv ∧ (loaded 32 (ones 16)).fovf = false ∧ (loaded 32 (ones 16)).fb ≠ [] ∧
    (loaded 32 (ones 16)).fb.length + pbc (loaded 32 (ones 16)).fb.length ≤
      (loaded 32 (ones 16)).cfg.nmax ∧
    (loaded 32 (ones 16)).fb.length + 16 = (loaded 32 (ones 16)).cfg.nmax ∧
    16 ≤ (loaded 32 (ones 16)).fb.length ∧
    (next? (exec .fgen (loaded 32 (ones 16)))).map (fun t => readReg t 3) = some 32 := by decide

/-- One word for each name, at the edges: bit 9, bit 8, an opcode one past HDECX. -/
theorem witness_IllegalWordNames :
    (0x00000200#32 : Word).toNat / 2 ^ 9 ≠ 0 ∧
    ((0x00000101#32 : Word).toNat / 2 ^ 9 = 0 ∧ (0x00000101#32 : Word).toNat % 256 ≠ 0x02 ∧
      (0x00000101#32 : Word).toNat / 256 % 2 = 1) ∧
    ((0x00000014#32 : Word).toNat / 2 ^ 9 = 0 ∧ (0x00000014#32 : Word).toNat / 256 % 2 = 0 ∧
      (0x00000014#32 : Word).toNat % 256 ∉ [0x01, 0x02, 0x10, 0x11, 0x12, 0x13, 0x20, 0x21]) := by
  decide

end Sys2Proof.Machine.Tests
end

section
/-! The state after reset (R37): what the host reads from it, what the first command does to it, and that
no command leaves TAG at IDLE unless it was there.
-/
namespace Sys2Proof.Machine

/-! ### Host reads after reset (R41, R43, R44) -/

@[simp] theorem statusWord_resetWith (cfg : Config) : statusWord (State.resetWith cfg) = 0#32 := by
  change 0#27 ++ BitVec.ofBool false ++ 0#4 = 0#32
  decide

@[simp] theorem readReg_resetWith (cfg : Config) (i : Nat) :
    readReg (State.resetWith cfg) i = 0#32 := by
  unfold readReg
  split
  case h_2 => exact statusWord_resetWith cfg
  all_goals rfl

@[simp] theorem readFB_resetWith (cfg : Config) (k : Nat) :
    readFB (State.resetWith cfg) k = false := rfl

@[simp] theorem readOB_resetWith (cfg : Config) (k : Nat) :
    readOB (State.resetWith cfg) k = false := rfl

/-! ### The first command after reset -/

/-- After reset the frame is empty and FOVF is 0 already, so CLR has only CMD to write (R80). -/
theorem exec_clr_resetWith (cfg : Config) :
    exec .clr (State.resetWith cfg) = .next { State.resetWith cfg with cmd := 0x00000001#32 } := rfl

@[simp] theorem frameRejected_resetWith (cfg : Config) :
    frameRejected (State.resetWith cfg) = true := rfl

/-- Every codec command but PCNT tests R153 (a) or (b) before anything else. -/
theorem exec_codec_of_frameRejected {i : Instr} {s : State} (hi : i.isCodec = true)
    (hpcnt : i ≠ .pcnt) (hs : frameRejected s = true) :
    exec i s = .next (raiseTag .invalidInput (setCmd (encode i) s)) := by
  cases i with
  | clr => simp [Instr.isCodec] at hi
  | push b => simp [Instr.isCodec] at hi
  | pcnt => exact absurd rfl hpcnt
  | henc => exact congrArg Host.Outcome.next (if_pos hs)
  | hdec => exact congrArg Host.Outcome.next (if_pos hs)
  | hdecx => exact congrArg Host.Outcome.next (if_pos hs)
  | fgen => exact congrArg Host.Outcome.next (if_pos hs)
  | fver => exact congrArg Host.Outcome.next (if_pos hs)

/-! ### IDLE is no result (R151) -/

/-- No row of codec results has the tag IDLE. -/
theorem CodecRow.tag_ne_idle {s : State} {tag : Tag} {p S pos c rc : Nat} {out : List Bit}
    (h : CodecRow s tag p S pos c rc out) : tag ≠ .idle := by
  cases h <;> decide

/-- A command after which TAG is IDLE is a frame command, and found TAG at IDLE. -/
theorem exec_tag_idle {i : Instr} {s t : State} (h : exec i s = .next t) (ht : t.tag = .idle) :
    s.tag = .idle ∧ i.isCodec = false := by
  rcases exec_cases i s with
    ⟨rfl, heq⟩ | ⟨b, rfl, heq⟩ | ⟨-, tag, p, S, pos, c, rc, out, hrow, heq⟩ <;>
    obtain rfl := Host.Outcome.next.inj (heq.symm.trans h)
  · exact ⟨by simpa using ht, rfl⟩
  · exact ⟨by simpa using ht, rfl⟩
  · exact absurd ht hrow.tag_ne_idle

/-- Settles O12: the fields are read off the reset state; CLR and the codec commands by their laws on an
empty frame; IDLE by the table of results, in which it has no row. -/
theorem resetStateValues : Obligations.ResetStateValues := by
  unfold Obligations.ResetStateValues
  refine ⟨⟨Config.reference, rfl⟩, fun cfg => ?_, fun _ _ _ => exec_tag_idle⟩
  refine ⟨State.resetWith cfg, rfl, rfl, rfl, rfl, rfl, rfl, rfl, rfl, rfl, rfl, rfl, rfl,
    readReg_resetWith cfg, readFB_resetWith cfg, readOB_resetWith cfg, exec_clr_resetWith cfg,
    fun i hi hpcnt => ?_⟩
  exact ⟨_, exec_codec_of_frameRejected hi hpcnt (frameRejected_resetWith cfg), rfl⟩

end Sys2Proof.Machine
end

section
/-! The decoder as the opcode map (R64): a word is a command exactly when it is that command's encoding;
the four tests on the word as a number; the rows with mask and match; the nine legal words.
-/
namespace Sys2Proof

/-! ### A word is a command exactly when it is the command's encoding (R61, R62, R64) -/

theorem decode_encode (i : Instr) : decode (encode i) = .command i := by
  cases i with
  | push b => cases b <;> rfl
  | _ => rfl

theorem encode_of_ne_push {i : Instr} (h : ∀ b, i ≠ .push b) : encode i = formatN i.opcode := by
  cases i with
  | push b => exact absurd rfl (h b)
  | _ => rfl

/-- Format N is format B with operand bit 0. -/
theorem formatN_eq_formatB_false (op : BitVec 8) : formatN op = formatB false op := rfl

theorem eq_formatB_of_upperField_eq {w : Word} (h : upperField w = 0#23) :
    w = formatB (operandBit w) (opcodeField w) := by
  unfold formatB
  rw [← h]
  exact word_eq_fields w

theorem eq_encode_of_decode {w : Word} {i : Instr} (h : decode w = .command i) : w = encode i := by
  by_cases hu : upperField w = 0#23
  case neg => simp [decode_of_upperField_ne hu] at h
  have hw := eq_formatB_of_upperField_eq hu
  rw [decode_of_upperField_eq hu] at h
  split at h
  · next hop =>
    obtain rfl := Decoded.command.inj h
    rwa [hop] at hw
  · split at h
    · cases h
    · next hb =>
      obtain ⟨hop, hi⟩ := decodeFormatN_eq_command h
      rw [encode_of_ne_push hi, formatN_eq_formatB_false, ← hop, ← Bool.eq_false_of_not_eq_true hb]
      exact hw

theorem decode_eq_command_iff {w : Word} {i : Instr} : decode w = .command i ↔ w = encode i :=
  ⟨eq_encode_of_decode, fun h => h ▸ decode_encode i⟩

theorem mem_legalWords_iff (w : Word) : w ∈ legalWords ↔ ∃ i, w = encode i := by
  have hwords : legalWords = ([.clr, .push false, .push true, .pcnt, .henc, .hdec, .hdecx, .fgen,
      .fver] : List Instr).map encode := by decide
  rw [hwords, List.mem_map]
  constructor
  · rintro ⟨i, -, rfl⟩
    exact ⟨i, rfl⟩
  · rintro ⟨i, rfl⟩
    refine ⟨i, ?_, rfl⟩
    cases i with
    | push b => cases b <;> decide
    | _ => decide

/-! ### The four tests, on the word as a number (R64) -/

theorem exists_illegal_of_ne_command {d : Decoded} (h : ∀ i, d ≠ .command i) :
    ∃ why, d = .illegal why := by
  cases d with
  | command i => exact absurd rfl (h i)
  | illegal why => exact ⟨why, rfl⟩

theorem upperField_eq_zero_iff (w : Word) : upperField w = 0#23 ↔ w.toNat / 2 ^ 9 = 0 := by
  rw [← BitVec.toNat_inj, toNat_upperField, BitVec.toNat_zero]

theorem opcodeField_eq_iff (w : Word) (op : BitVec 8) :
    opcodeField w = op ↔ w.toNat % 256 = op.toNat := by
  rw [← BitVec.toNat_inj, toNat_opcodeField]

theorem decode_of_push_opcode {w : Word} (hu : w.toNat / 2 ^ 9 = 0) (hop : w.toNat % 256 = 0x02) :
    decode w = .command (.push (decide (w.toNat / 256 % 2 = 1))) := by
  rw [decode_of_upperField_eq ((upperField_eq_zero_iff w).2 hu),
    if_pos ((opcodeField_eq_iff w 0x02#8).2 hop), operandBit_eq]

theorem decode_of_operandBit {w : Word} (hu : w.toNat / 2 ^ 9 = 0) (hop : w.toNat % 256 ≠ 0x02)
    (hb : w.toNat / 256 % 2 = 1) : decode w = .illegal .operandBitSet := by
  rw [decode_of_upperField_eq ((upperField_eq_zero_iff w).2 hu),
    if_neg (mt (opcodeField_eq_iff w 0x02#8).1 hop), operandBit_eq, if_pos (decide_eq_true hb)]

theorem decode_of_formatN {w : Word} (hu : w.toNat / 2 ^ 9 = 0) (hop : w.toNat % 256 ≠ 0x02)
    (hb : w.toNat / 256 % 2 = 0) : decode w = decodeFormatN (opcodeField w) := by
  rw [decode_of_upperField_eq ((upperField_eq_zero_iff w).2 hu),
    if_neg (mt (opcodeField_eq_iff w 0x02#8).1 hop), operandBit_eq, if_neg (by simp [hb])]

/-- R64's table of the format-N commands, each with its opcode. -/
def formatNTable : List (Nat × Instr) :=
  [(0x01, .clr), (0x10, .pcnt), (0x11, .henc), (0x12, .hdec), (0x13, .hdecx), (0x20, .fgen),
    (0x21, .fver)]

theorem mem_formatNTable_iff (n : Nat) (i : Instr) :
    (n, i) ∈ formatNTable ↔ n = i.opcode.toNat ∧ ∀ b, i ≠ .push b := by
  cases i <;> simp [formatNTable, Instr.opcode]

theorem decodeFormatN_opcode {i : Instr} (h : ∀ b, i ≠ .push b) :
    decodeFormatN i.opcode = .command i := by
  cases i with
  | push b => exact absurd rfl (h b)
  | _ => rfl

theorem decodeFormatN_eq_command_iff (op : BitVec 8) (i : Instr) :
    decodeFormatN op = .command i ↔ (op.toNat, i) ∈ formatNTable := by
  rw [mem_formatNTable_iff, BitVec.toNat_inj]
  exact ⟨decodeFormatN_eq_command, fun ⟨hop, hi⟩ => hop ▸ decodeFormatN_opcode hi⟩

theorem decodeFormatN_illegal {op : BitVec 8} (h : op.toNat ∉ formatNTable.map Prod.fst) :
    ∃ why, decodeFormatN op = .illegal why :=
  exists_illegal_of_ne_command fun i hi =>
    h (List.mem_map_of_mem ((decodeFormatN_eq_command_iff op i).1 hi))

/-! ### The rows with mask and match (R64) -/

theorem OpcodeRow.covers_iff (r : OpcodeRow) (w : Word) :
    r.covers w = true ↔ w &&& r.mask = r.pattern := by
  simp [OpcodeRow.covers]

theorem ownRow : ∀ i : Instr, Laws.OwnRow.Statement i
  | .clr => Laws.OwnRow.clr
  | .push b => Laws.OwnRow.push b
  | .pcnt => Laws.OwnRow.pcnt
  | .henc => Laws.OwnRow.henc
  | .hdec => Laws.OwnRow.hdec
  | .hdecx => Laws.OwnRow.hdecx
  | .fgen => Laws.OwnRow.fgen
  | .fver => Laws.OwnRow.fver

/-- The mnemonics of the rows that match a command's word: the command's own and no other. -/
theorem mnemonic_of_row_iff (i : Instr) (name : String) :
    (∃ r ∈ opcodeRows, r.mnemonic = name ∧ encode i &&& r.mask = r.pattern) ↔ i.mnemonic = name := by
  obtain ⟨-, hrows⟩ := ownRow i
  have hmem : name ∈ (opcodeRows.filter fun r => r.covers (encode i)).map (·.mnemonic) ↔
      name = i.mnemonic := by rw [hrows, List.mem_singleton]
  simp only [List.mem_map, List.mem_filter, OpcodeRow.covers_iff] at hmem
  rw [eq_comm, ← hmem]
  exact exists_congr fun r => by tauto

/-- Only PUSH's mask has a zero bit, the operand bit's. -/
theorem mask_of_mem_opcodeRows : ∀ r ∈ opcodeRows,
    (r.mask = BitVec.allOnes 32 ∧ r.pattern ∈ legalWords) ∨
      (r.mask = 0xFFFFFEFF#32 ∧ r.pattern = 0x00000002#32) := by decide

theorem upperField_and_pushMask (w : Word) : upperField (w &&& 0xFFFFFEFF#32) = upperField w := by
  have hmask : BitVec.extractLsb' 9 23 0xFFFFFEFF#32 = BitVec.allOnes 23 := by decide
  rw [upperField, BitVec.extractLsb'_and, hmask, BitVec.and_allOnes, upperField]

theorem opcodeField_and_pushMask (w : Word) :
    opcodeField (w &&& 0xFFFFFEFF#32) = opcodeField w := by
  have hmask : BitVec.extractLsb' 0 8 0xFFFFFEFF#32 = BitVec.allOnes 8 := by decide
  rw [opcodeField, BitVec.extractLsb'_and, hmask, BitVec.and_allOnes, opcodeField]

/-- PUSH's mask leaves the upper field and the opcode to be tested. -/
theorem eq_encode_push_of_masked {w : Word} (h : w &&& 0xFFFFFEFF#32 = 0x00000002#32) :
    w = encode (.push (operandBit w)) := by
  have hu : upperField w = 0#23 := by rw [← upperField_and_pushMask, h]; decide
  have hop : opcodeField w = 0x02#8 := by rw [← opcodeField_and_pushMask, h]; decide
  exact eq_encode_of_decode (by rw [decode_of_upperField_eq hu, if_pos hop])

theorem exists_encode_of_masked {w : Word} {r : OpcodeRow} (hr : r ∈ opcodeRows)
    (h : w &&& r.mask = r.pattern) : ∃ i, w = encode i := by
  obtain ⟨hmask, hpat⟩ | ⟨hmask, hpat⟩ := mask_of_mem_opcodeRows r hr
  · rw [hmask, BitVec.and_allOnes] at h
    exact (mem_legalWords_iff w).1 (h ▸ hpat)
  · rw [hmask, hpat] at h
    exact ⟨_, eq_encode_push_of_masked h⟩

/-- A word is the command of the row it matches (R64, "Equivalently"). -/
theorem decode_mnemonic_iff (w : Word) (name : String) :
    (∃ i, decode w = .command i ∧ i.mnemonic = name) ↔
      ∃ r ∈ opcodeRows, r.mnemonic = name ∧ w &&& r.mask = r.pattern := by
  constructor
  · rintro ⟨i, hi, hname⟩
    rw [eq_encode_of_decode hi]
    exact (mnemonic_of_row_iff i name).2 hname
  · rintro ⟨r, hr, hname, hw⟩
    obtain ⟨i, rfl⟩ := exists_encode_of_masked hr hw
    exact ⟨i, decode_encode i, (mnemonic_of_row_iff i name).1 ⟨r, hr, hname, hw⟩⟩

theorem opcodeRows_mnemonic_injective :
    ∀ r ∈ opcodeRows, ∀ r' ∈ opcodeRows, r.mnemonic = r'.mnemonic → r = r' := by decide

/-- No two rows match one word: both carry the mnemonic of the command the word decodes to. -/
theorem opcodeRow_unique {w : Word} {r r' : OpcodeRow} (hr : r ∈ opcodeRows) (hr' : r' ∈ opcodeRows)
    (h : w &&& r.mask = r.pattern) (h' : w &&& r'.mask = r'.pattern) : r = r' := by
  obtain ⟨i, rfl⟩ := exists_encode_of_masked hr h
  have hi := (mnemonic_of_row_iff i _).1 ⟨r, hr, rfl, h⟩
  have hi' := (mnemonic_of_row_iff i _).1 ⟨r', hr', rfl, h'⟩
  exact opcodeRows_mnemonic_injective r hr r' hr' (hi.symm.trans hi')

/-- The high nibble of the opcode: 0 frame, 1 Hamming, 2 Fletcher (R64). -/
theorem encode_family (i : Instr) :
    (encode i).toNat % 256 / 16 =
      if i.isCodec = false then 0 else if i = .fgen ∨ i = .fver then 2 else 1 := by
  cases i with
  | push b => cases b <;> decide
  | _ => decide

/-- Settles O2: the tests by the decoder's laws on the word as a number, the rest because a word is a
command exactly when it is that command's encoding. -/
theorem decoderFollowsOpcodeMap : Obligations.DecoderFollowsOpcodeMap := by
  unfold Obligations.DecoderFollowsOpcodeMap
  refine ⟨fun w => ⟨fun hu => ?_, decode_of_push_opcode, fun hu hop hb => ?_, fun hu hop hb => ?_⟩,
    decode_mnemonic_iff, fun w r hr r' hr' => opcodeRow_unique hr hr', fun w i hi => ?_, fun w => ?_⟩
  · exact ⟨_, decode_of_upperField_ne (mt (upperField_eq_zero_iff w).1 hu)⟩
  · exact ⟨_, decode_of_operandBit hu hop hb⟩
  · rw [decode_of_formatN hu hop hb, ← toNat_opcodeField]
    exact ⟨decodeFormatN_eq_command_iff _, decodeFormatN_illegal⟩
  · rw [eq_encode_of_decode hi]
    exact encode_family i
  · simp only [decode_eq_command_iff]
    exact (mem_legalWords_iff w).symm

end Sys2Proof
end

section
/-! The frame commands (R80, R81): the next state of each, and the cells of FB before and after.
-/
namespace Sys2Proof.Machine

/-! ### The cells of FB (R9, R10, R43) -/

/-- A cell out of use reads 0 (R43). -/
theorem readFB_of_length_le {s : State} {k : Nat} (h : s.fb.length ≤ k) : readFB s k = false :=
  List.getD_eq_default _ _ h

/-- The appended bit lands in the first cell that was free (R81). -/
theorem readFB_append_length (b : Bit) (s : State) :
    readFB { s with fb := s.fb ++ [b] } s.fb.length = b := by
  simp [readFB]

/-- The cells in use keep their bits, and the cells above the appended one still read 0 (R81, R43). -/
theorem readFB_append_of_ne (b : Bit) (s : State) {k : Nat} (hk : k ≠ s.fb.length) :
    readFB { s with fb := s.fb ++ [b] } k = readFB s k := by
  rcases Nat.lt_or_gt_of_ne hk with hlt | hgt
  · exact List.getD_append _ _ _ _ hlt
  · have hout : (s.fb ++ [b]).length ≤ k := by simpa using hgt
    rw [readFB_of_length_le hout, readFB_of_length_le hgt.le]

/-- The bit pushed last is position 1 of the reversed view (R10, R81). -/
theorem bitAt_append_one (b : Bit) (t : List Bit) : bitAt (t ++ [b]) 1 = b := by
  simp [bitAt]

/-! ### The next state (R80, R81) -/

theorem appendBit_of_lt (b : Bit) {s : State} (h : s.fb.length < s.cfg.nmax) :
    appendBit b s = { s with fb := s.fb ++ [b] } :=
  ((appendBit_cases b s).resolve_right fun ⟨hfull, _⟩ => absurd h (Nat.not_lt.2 hfull)).2

theorem appendBit_of_le (b : Bit) {s : State} (h : s.cfg.nmax ≤ s.fb.length) :
    appendBit b s = { s with fovf := true } :=
  ((appendBit_cases b s).resolve_left fun ⟨hfree, _⟩ => absurd hfree (Nat.not_lt.2 h)).2

theorem exec_clr (s : State) :
    exec .clr s = .next { s with cmd := 0x00000001#32, fb := [], fovf := false } := rfl

theorem exec_push (b : Bit) (s : State) :
    exec (.push b) s = .next (appendBit b (setCmd (if b then 0x00000102#32 else 0x00000002#32) s)) :=
  rfl

/-- PUSH while a cell is free. -/
theorem exec_push_of_lt (b : Bit) {s : State} (h : s.fb.length < s.cfg.nmax) :
    exec (.push b) s = .next { s with
      cmd := if b then 0x00000102#32 else 0x00000002#32, fb := s.fb ++ [b] } :=
  (exec_push b s).trans (congrArg _ (appendBit_of_lt b (s := setCmd _ s) h))

/-- PUSH on a full frame buffer. -/
theorem exec_push_of_le (b : Bit) {s : State} (h : s.cfg.nmax ≤ s.fb.length) :
    exec (.push b) s = .next { s with
      cmd := if b then 0x00000102#32 else 0x00000002#32, fovf := true } :=
  (exec_push b s).trans (congrArg _ (appendBit_of_le b (s := setCmd _ s) h))

/-- Settles O14: the next state is CLR's meaning, and in an empty frame every cell is out of use. -/
theorem clrEmptiesFrame : Obligations.ClrEmptiesFrame := by
  unfold Obligations.ClrEmptiesFrame
  exact ⟨rfl, fun s => ⟨exec_clr s, fun k => readFB_of_length_le k.zero_le⟩⟩

/-- Settles O15: by the two cases of PUSH, and the cells of a frame with one bit appended. -/
theorem pushAppendsOrOverflows : Obligations.PushAppendsOrOverflows := by
  unfold Obligations.PushAppendsOrOverflows
  refine ⟨rfl, rfl, fun b s => ⟨fun hfree => ?_, exec_push_of_le b⟩⟩
  exact ⟨exec_push_of_lt b hfree, readFB_append_length b s, bitAt_append_one b s.fb,
    fun _ => readFB_append_of_ne b s⟩

end Sys2Proof.Machine
end

section
/-! The parity count and the syndrome (R90, R93): the count as the least number that meets its
inequality, its table, and the columns of the syndrome as parities.
-/
namespace Sys2Proof.Machine

/-! ### The parity count (R90) -/

/-- The inequality of R90, once met, is met by every larger number: `2^p` grows by at least 1. -/
theorem le_two_pow_of_le {L p r : Nat} (h : L + p + 1 ≤ 2 ^ p) (hpr : p ≤ r) :
    L + r + 1 ≤ 2 ^ r := by
  induction r, hpr using Nat.le_induction with
  | base => exact h
  | succ r _ ih =>
    have hpos : 0 < 2 ^ r := Nat.two_pow_pos r
    rw [pow_succ]
    omega

/-- The count is the only number that meets the inequality while no smaller one does (R90). -/
theorem pbc_eq_of_least {L p : Nat} (h : L + p + 1 ≤ 2 ^ p)
    (hleast : ∀ q, q < p → 2 ^ q < L + q + 1) : pbc L = p := by
  refine Nat.le_antisymm (pbc_le_of_le_two_pow h) (Nat.le_of_not_lt fun hlt => ?_)
  exact absurd (le_two_pow_pbc L) (Nat.not_le.2 (hleast _ hlt))

/-- Only the number just below has to be tested. -/
theorem pbc_eq_succ {L p : Nat} (hfail : 2 ^ p < L + p + 1) (h : L + (p + 1) + 1 ≤ 2 ^ (p + 1)) :
    pbc L = p + 1 :=
  pbc_eq_of_least h fun _ hq => Nat.lt_of_not_le fun hmet =>
    absurd (le_two_pow_of_le hmet (Nat.le_of_lt_succ hq)) (Nat.not_le.2 hfail)

/-- A row of R90's table: the shortest length fails at p, the longest meets the inequality at p + 1. -/
theorem pbc_eq_succ_of_range {p lo hi : Nat} (hlo : 2 ^ p < lo + p + 1)
    (hhi : hi + (p + 1) + 1 ≤ 2 ^ (p + 1)) (L : Nat) (hL : lo ≤ L) (hL' : L ≤ hi) : pbc L = p + 1 :=
  pbc_eq_succ (by omega) (by omega)

theorem pbc_zero : pbc 0 = 0 := Nat.le_zero.1 (pbc_le_of_le_two_pow (by decide))

/-- The inequality at p = 1 asks for L = 0, where 0 meets it already (R90). -/
theorem pbc_ne_one (L : Nat) : pbc L ≠ 1 := by
  intro h1
  have hle := le_two_pow_pbc L
  rw [h1] at hle
  obtain rfl : L = 0 := by omega
  rw [pbc_zero] at h1
  omega

/-- Settles O17: the model's loop finds the least number, and each row of the table is a range of
lengths that fail at one number and meet the inequality at the next. -/
theorem parityBitCountIsLeast : Obligations.ParityBitCountIsLeast := by
  unfold Obligations.ParityBitCountIsLeast
  refine ⟨fun L => ⟨le_two_pow_pbc L, fun _ => pbc_le_of_le_two_pow⟩, pbc_ne_one, pbc_zero,
    pbc_eq_succ (by decide) (by decide), ?_, ?_, ?_, ?_, ?_, ?_, ?_, ?_,
    pbc_eq_succ (by decide) (by decide), pbc_eq_succ (by decide) (by decide),
    pbc_eq_succ (by decide) (by decide)⟩
  all_goals exact pbc_eq_succ_of_range (by decide) (by decide)

/-! ### The columns of the syndrome (R93) -/

/-- The XOR of a list of bits is the parity of the number of ones. -/
theorem foldl_xor_eq_countP {α : Type} (f : α → Bool) (l : List α) (c : Bool) :
    l.foldl (fun c k => c ^^ f k) c = (c ^^ decide (l.countP f % 2 = 1)) := by
  induction l generalizing c with
  | nil => simp
  | cons a l ih =>
    rw [List.foldl_cons, ih, List.countP_cons]
    cases hf : f a
    · simp
    · have hflip : decide ((l.countP f + 1) % 2 = 1) = !decide (l.countP f % 2 = 1) := by
        rw [← decide_not, decide_eq_decide]
        omega
      rw [if_pos rfl, hflip, Bool.xor_true, Bool.not_xor, Bool.xor_not]

/-- Column j counts the positions that hold a 1 and have bit j (R93). -/
theorem syndColumn_eq_countP (s : List Bit) (j : Nat) : syndColumn s j =
    decide ((List.range s.length).countP (fun k => bitAt s (k + 1) && (k + 1).testBit j) % 2 = 1) := by
  rw [syndColumn, foldl_xor_eq_countP, Bool.false_xor]

/-- pbc(n) columns are enough, since the syndrome is below `2^pbc(n)` (R93, R94). -/
theorem syndFromColumns_pbc (s : List Bit) : syndFromColumns s (pbc s.length) = synd s := by
  rw [syndFromColumns_eq, Nat.mod_eq_of_lt (synd_lt_two_pow_pbc s)]

/-- Settles O20: each bit of the syndrome is a column, and each column is a parity. -/
theorem syndromeIsColumnProcedure : Obligations.SyndromeIsColumnProcedure := by
  unfold Obligations.SyndromeIsColumnProcedure
  refine fun s _ => ⟨(syndFromColumns_pbc s).symm, fun j _ => ?_⟩
  rw [testBit_synd, syndColumn_eq_countP, decide_eq_true_iff]

end Sys2Proof.Machine
end

section
/-! The Hamming commands (R101 to R104): the next state of each on every frame.
-/
namespace Sys2Proof.Machine

/-! ### The frame tests (R153) -/

theorem frameRejected_eq_false {s : State} (hfovf : s.fovf = false) (hfb : s.fb ≠ []) :
    frameRejected s = false := by
  rw [← Bool.not_eq_true, frameRejected_iff, hfovf]
  simpa using hfb

/-! ### PCNT (R101) -/

theorem exec_pcnt_of_fovf_false {s : State} (h : s.fovf = false) :
    exec .pcnt s = .next (result .done (pbc s.fb.length) 0 0 0 0 [] (setCmd 0x00000010#32 s)) :=
  congrArg Host.Outcome.next (if_neg (by simp [frameOverflowed, h]))

theorem exec_pcnt_of_fovf_true {s : State} (h : s.fovf = true) :
    exec .pcnt s = .next (raiseTag .invalidInput (setCmd 0x00000010#32 s)) :=
  congrArg Host.Outcome.next (if_pos h)

/-- Settles O24: by the two cases of PCNT; the number given is pbc(LEN) because it is the least. -/
theorem pcntResult : Obligations.PcntResult := by
  unfold Obligations.PcntResult
  refine ⟨rfl, fun s => ⟨fun p hfovf hmet hleast => ?_, exec_pcnt_of_fovf_true⟩⟩
  rw [exec_pcnt_of_fovf_false hfovf, pbc_eq_of_least hmet hleast]
  rfl

/-! ### HENC (R102) -/

/-- HENC when the codeword fits OB. -/
theorem exec_henc_of_le {s : State} (hs : frameRejected s = false)
    (hfit : s.fb.length + pbc s.fb.length ≤ s.cfg.nmax) :
    exec .henc s = .next (result .done (pbc s.fb.length) 0 0 0 0
      (hammingEncode s.cfg.extractOrder s.fb) (setCmd 0x00000011#32 s)) := by
  have htest : ¬ outputTooLong (setCmd 0x00000011#32 s) (s.len + pbc s.len) = true :=
    mt (outputTooLong_iff _ _).1 (Nat.not_lt.2 hfit)
  exact congrArg Host.Outcome.next ((if_neg (ne_true_of_eq_false hs)).trans (if_neg htest))

/-- HENC when the codeword does not fit OB. -/
theorem exec_henc_of_lt {s : State} (hs : frameRejected s = false)
    (hlong : s.cfg.nmax < s.fb.length + pbc s.fb.length) :
    exec .henc s = .next (raiseTag .outputOverflow (setCmd 0x00000011#32 s)) := by
  have htest : outputTooLong (setCmd 0x00000011#32 s) (s.len + pbc s.len) = true :=
    (outputTooLong_iff _ _).2 hlong
  exact congrArg Host.Outcome.next ((if_neg (ne_true_of_eq_false hs)).trans (if_pos htest))

/-- Settles O25: by the cases of HENC; the codeword is the only string of its length that strips to the
frame and has syndrome 0. -/
theorem hencYieldsTheCodeword : Obligations.HencYieldsTheCodeword := by
  unfold Obligations.HencYieldsTheCodeword
  refine ⟨rfl, fun s => ⟨fun hfovf hfb hfit => ?_, fun hrej => ?_, fun hfovf hfb hlong => ?_⟩⟩
  · refine ⟨hammingEncode s.cfg.extractOrder s.fb, length_hammingEncode _ _,
      strip_hammingEncode _ _ hfb, synd_hammingEncode _ _, fun c' hlen hdata hsynd => ?_,
      exec_henc_of_le (frameRejected_eq_false hfovf hfb) hfit⟩
    rw [length_hammingEncode] at hlen
    exact hammingEncode_unique _ _ _ hfb hlen hdata hsynd
  · exact exec_codec_of_frameRejected rfl (by decide) ((frameRejected_iff s).2 hrej)
  · exact exec_henc_of_lt (frameRejected_eq_false hfovf hfb) hlong

/-! ### The decoder of HDEC and HDECX (R103, R104) -/

theorem hammingDecode_of_synd_eq_zero (clean : List Bit) {s : State} (h : synd s.fb = 0) :
    hammingDecode clean s = result .noError (pbc s.fb.length) 0 0 0 0 clean s := by
  obtain ⟨-, heq⟩ | ⟨hpos, -⟩ | ⟨hpos, -⟩ := hammingDecode_cases clean s
  · exact heq
  · omega
  · omega

theorem hammingDecode_of_synd_lt (clean : List Bit) {s : State} (hpos : 0 < synd s.fb)
    (hlt : synd s.fb < s.fb.length) :
    hammingDecode clean s = result .corrected (pbc s.fb.length) (synd s.fb) (synd s.fb) 0 0
      (flipAt s.fb (synd s.fb)) s := by
  obtain ⟨h0, -⟩ | ⟨-, -, heq⟩ | ⟨-, hle, -⟩ := hammingDecode_cases clean s
  · omega
  · exact heq
  · omega

/-- A syndrome at or above the length is positive, since the frame is not empty. -/
theorem hammingDecode_of_length_le (clean : List Bit) {s : State} (hfb : s.fb ≠ [])
    (hle : s.fb.length ≤ synd s.fb) :
    hammingDecode clean s = result .uncorrectable (pbc s.fb.length) (synd s.fb) 0 0 0 [] s := by
  have hlen : 0 < s.fb.length := List.length_pos_iff.2 hfb
  obtain ⟨h0, -⟩ | ⟨-, hlt, -⟩ | ⟨-, -, heq⟩ := hammingDecode_cases clean s
  · omega
  · omega
  · exact heq

theorem exec_hdec_of_accepted {s : State} (hs : frameRejected s = false) :
    exec .hdec s = .next (hammingDecode s.fb (setCmd 0x00000012#32 s)) :=
  congrArg Host.Outcome.next (if_neg (ne_true_of_eq_false hs))

theorem exec_hdecx_of_accepted {s : State} (hs : frameRejected s = false) :
    exec .hdecx s = .next
      (hammingDecode (pad8 (strip s.cfg.extractOrder s.fb)) (setCmd 0x00000013#32 s)) :=
  congrArg Host.Outcome.next (if_neg (ne_true_of_eq_false hs))

/-- Settles O26: HDEC on an accepted frame is the decoder, with its three arms. -/
theorem hdecResult : Obligations.HdecResult := by
  unfold Obligations.HdecResult
  refine ⟨rfl, fun s => ⟨fun hfovf hfb => ?_, fun hrej => ?_⟩⟩
  · rw [exec_hdec_of_accepted (frameRejected_eq_false hfovf hfb)]
    refine ⟨fun h0 => ?_, fun hpos hlt => ?_, fun hle => ?_⟩
    · exact congrArg _ (hammingDecode_of_synd_eq_zero s.fb (s := setCmd _ s) h0)
    · exact congrArg _ (hammingDecode_of_synd_lt s.fb (s := setCmd _ s) hpos hlt)
    · exact congrArg _ (hammingDecode_of_length_le s.fb (s := setCmd _ s) hfb hle)
  · exact exec_codec_of_frameRejected rfl (by decide) ((frameRejected_iff s).2 hrej)

/-! ### The text of HDECX (R98, R104) -/

theorem pad8_strip (order : ExtractOrder) (s : List Bit) :
    pad8 (strip order s) = strip order s ++
      List.replicate (8 * ((ndata s.length + 7) / 8) - ndata s.length) false := by
  rw [pad8, ceilChunks_eq, length_strip]

theorem length_pad8_strip (order : ExtractOrder) (s : List Bit) :
    (pad8 (strip order s)).length = 8 * ((ndata s.length + 7) / 8) := by
  rw [length_pad8, length_strip]

/-- The text of a frame that fits FB fits OB: NMAX is a whole number of chunks (R5). -/
theorem length_pad8_strip_le {c : Config} {s : List Bit} (order : ExtractOrder) (hc : c.wf = true)
    (hs : s.length ≤ c.nmax) : (pad8 (strip order s)).length ≤ c.nmax := by
  have hchunks : c.nmax % 8 = 0 := by
    simp only [Config.wf, Bool.and_eq_true, decide_eq_true_eq] at hc
    exact hc.2
  have hdata : ndata s.length ≤ s.length := Nat.sub_le _ _
  rw [length_pad8_strip]
  omega

/-- Settles O27: HDECX on an accepted frame is the decoder, whose error-free arm gives the padded data
bits. -/
theorem hdecxResult : Obligations.HdecxResult := by
  unfold Obligations.HdecxResult
  refine ⟨rfl, fun s => ⟨fun hfovf hfb => ?_, fun hrej => ?_⟩⟩
  · rw [exec_hdecx_of_accepted (frameRejected_eq_false hfovf hfb)]
    refine ⟨fun h0 => ?_, fun hpos hlt => ?_, fun hle => ?_⟩
    · exact ⟨_, pad8_strip _ _, length_pad8_strip _ _, length_pad8_strip_le _,
        congrArg _ (hammingDecode_of_synd_eq_zero _ (s := setCmd _ s) h0)⟩
    · exact congrArg _ (hammingDecode_of_synd_lt _ (s := setCmd _ s) hpos hlt)
    · exact congrArg _ (hammingDecode_of_length_le _ (s := setCmd _ s) hfb hle)
  · exact exec_codec_of_frameRejected rfl (by decide) ((frameRejected_iff s).2 hrej)

end Sys2Proof.Machine
end

section
/-! The Fletcher codec (R130 to R136): the sums bit by bit, the checksum as two bytes, and the next state
of FGEN and FVER on every frame.
-/
namespace Sys2Proof.Machine

/-! ### The sums (R130) -/

@[simp] theorem fsum_nil : fsum [] = (0, 0) := rfl

/-- A further bit is one more round of the accumulator (R130). -/
theorem fsum_concat (t : List Bit) (b : Bit) : fsum (t ++ [b]) = fsumStep (fsum t) b :=
  List.foldl_concat _ _ _ _

theorem fsum_fst_concat (t : List Bit) (b : Bit) :
    (fsum (t ++ [b])).1 = ((fsum t).1 + b.toNat) % 255 := by
  rw [fsum_concat, fsumStep]

/-- The second sum adds the first sum of the same round (R130). -/
theorem fsum_snd_concat (t : List Bit) (b : Bit) :
    (fsum (t ++ [b])).2 = ((fsum t).2 + (fsum (t ++ [b])).1) % 255 := by
  rw [fsum_concat, fsumStep]

/-- Settles O32: by the accumulator's round, whose remainders are below 255. -/
theorem fletcherSums : Obligations.FletcherSums := by
  unfold Obligations.FletcherSums
  exact ⟨fsum_nil, fun t b => ⟨fsum_fst_concat t b, fsum_snd_concat t b,
    Nat.le_of_lt_succ (fsum_fst_lt t), Nat.le_of_lt_succ (fsum_snd_lt t)⟩⟩

/-! ### The checksum as two bytes (R31, R131, R133) -/

/-- The bits of a number from the most significant one down (R11). -/
theorem bitsOf_eq_map_testBit (n v : Nat) :
    bitsOf n v = (List.range n).map fun k => v.testBit (n - 1 - k) := by
  induction n with
  | zero => rfl
  | succ n ih =>
    rw [bitsOf, ih, List.range_succ_eq_map, List.map_cons, List.map_map]
    refine congrArg (v.testBit n :: ·) (List.map_congr_left fun k _ => congrArg v.testBit ?_)
    omega

/-- The field FGEN appends is sum2's byte and then sum1's: both spell one number (R131, R133). -/
theorem bitsOf_fcs (t : List Bit) :
    bitsOf 16 (fcs t) = bitsOf 8 (fsum t).2 ++ bitsOf 8 (fsum t).1 := by
  have h1 := fsum_fst_lt t
  have h2 := fsum_snd_lt t
  refine val_inj (by simp) ?_
  rw [val_append, length_bitsOf, val_bitsOf, val_bitsOf, val_bitsOf, fcs_eq]
  omega

/-- CSUM holds sum2 above sum1 (R31). -/
theorem toField_fcs (t : List Bit) :
    toField (fcs t) = BitVec.ofNat 8 (fsum t).2 ++ BitVec.ofNat 8 (fsum t).1 := by
  have h1 : (fsum t).1 < 2 ^ 8 := (fsum_fst_lt t).trans (by decide)
  have h2 : (fsum t).2 < 2 ^ 8 := (fsum_snd_lt t).trans (by decide)
  apply BitVec.eq_of_toNat_eq
  rw [toField, BitVec.toNat_append, BitVec.toNat_ofNat, BitVec.toNat_ofNat, BitVec.toNat_ofNat,
    Nat.mod_eq_of_lt (fcs_lt t), Nat.mod_eq_of_lt h1, Nat.mod_eq_of_lt h2,
    ← Nat.shiftLeft_add_eq_or_of_lt h1, Nat.shiftLeft_eq, fcs_eq]

/-- The output of FGEN, the two bytes bit by bit (R133). -/
theorem fletcherGen_eq_testBits (t : List Bit) :
    fletcherGen t = t ++ ((List.range 8).map fun k => (fsum t).2.testBit (7 - k)) ++
      ((List.range 8).map fun k => (fsum t).1.testBit (7 - k)) := by
  rw [fletcherGen, bitsOf_fcs, bitsOf_eq_map_testBit, bitsOf_eq_map_testBit, List.append_assoc]

/-! ### FGEN (R135) -/

/-- FGEN when the frame and its checksum fit OB. -/
theorem exec_fgen_of_le {s : State} (hs : frameRejected s = false)
    (hfit : s.fb.length + 16 ≤ s.cfg.nmax) :
    exec .fgen s = .next (result .done 0 0 0 (fcs s.fb) 0 (fletcherGen s.fb)
      (setCmd 0x00000020#32 s)) := by
  have htest : ¬ outputTooLong (setCmd 0x00000020#32 s) (s.len + checksumSize) = true :=
    mt (outputTooLong_iff _ _).1 (Nat.not_lt.2 hfit)
  exact congrArg Host.Outcome.next ((if_neg (ne_true_of_eq_false hs)).trans (if_neg htest))

/-- FGEN when they do not fit OB. -/
theorem exec_fgen_of_lt {s : State} (hs : frameRejected s = false)
    (hlong : s.cfg.nmax < s.fb.length + 16) :
    exec .fgen s = .next (raiseTag .outputOverflow (setCmd 0x00000020#32 s)) := by
  have htest : outputTooLong (setCmd 0x00000020#32 s) (s.len + checksumSize) = true :=
    (outputTooLong_iff _ _).2 hlong
  exact congrArg Host.Outcome.next ((if_neg (ne_true_of_eq_false hs)).trans (if_pos htest))

/-- Settles O34: by the cases of FGEN; the checksum, in CSUM and behind the frame, is the two bytes. -/
theorem fgenAppendsChecksum : Obligations.FgenAppendsChecksum := by
  unfold Obligations.FgenAppendsChecksum
  refine ⟨rfl, fun s => ⟨fun sum1 sum2 hfovf hfb hfit hsum => ?_, fun hrej => ?_,
    fun hfovf hfb hlong => ?_⟩⟩
  · rw [exec_fgen_of_le (frameRejected_eq_false hfovf hfb) hfit, result, toField_fcs,
      fletcherGen_eq_testBits, hsum]
    rfl
  · exact exec_codec_of_frameRejected rfl (by decide) ((frameRejected_iff s).2 hrej)
  · exact exec_fgen_of_lt (frameRejected_eq_false hfovf hfb) hlong

/-! ### FVER (R136) -/

theorem payload_append {t f : List Bit} (hf : f.length = 16) : payload (t ++ f) = t := by
  simp [payload, hf]

theorem received_append {t f : List Bit} (hf : f.length = 16) : received (t ++ f) = f := by
  simp [received, hf]

/-- FVER on a frame shorter than the checksum field. -/
theorem exec_fver_of_length_lt {s : State} (hs : frameRejected s = false)
    (hshort : s.fb.length < 16) :
    exec .fver s = .next (raiseTag .checksumMismatch (setCmd 0x00000021#32 s)) :=
  congrArg Host.Outcome.next ((if_neg (ne_true_of_eq_false hs)).trans (if_pos hshort))

/-- FVER on a payload with a checksum field behind it: the comparator decides (R134). -/
theorem exec_fver_of_eq_append {s : State} {t f : List Bit} (hfovf : s.fovf = false)
    (hfb : s.fb = t ++ f) (hf : f.length = 16) :
    exec .fver s = .next (
      if fcs t = val f then result .valid 0 0 0 (fcs t) (val f) t (setCmd 0x00000021#32 s)
      else result .checksumMismatch 0 0 0 (fcs t) (val f) [] (setCmd 0x00000021#32 s)) := by
  have hlong : ¬ s.fb.length < 16 := by simp [hfb, hf]
  have hne : s.fb ≠ [] := List.ne_nil_of_length_pos (by omega)
  have hs := frameRejected_eq_false hfovf hne
  have hpay : payload s.fb = t := hfb ▸ payload_append hf
  have hrec : received s.fb = f := hfb ▸ received_append hf
  rw [← hpay, ← hrec]
  exact congrArg Host.Outcome.next ((if_neg (ne_true_of_eq_false hs)).trans (if_neg hlong))

/-- Settles O35: by the cases of FVER; a frame of at least 16 bits is cut at the field. -/
theorem fverResult : Obligations.FverResult := by
  unfold Obligations.FverResult
  refine ⟨rfl, fun s => ⟨fun t f hfovf hfb hf => ?_, fun hfovf hfb hshort => ?_, fun hrej => ?_⟩⟩
  · rw [exec_fver_of_eq_append hfovf hfb hf]
    exact ⟨fun heq => congrArg _ (if_pos heq), fun hne => congrArg _ (if_neg hne)⟩
  · exact exec_fver_of_length_lt (frameRejected_eq_false hfovf hfb) hshort
  · exact exec_codec_of_frameRejected rfl (by decide) ((frameRejected_iff s).2 hrej)

end Sys2Proof.Machine
end

section
/-! Error results and their priority (R152 to R155): the write of a word that is no command; the tag of
each codec command as a function of the frame state, by the fixed order of tests.
-/
namespace Sys2Proof.Machine

/-! ### A write of CMD (R23, R152) -/

theorem step_write_cmd {s : State} {w : Word} {rest : List HostEvent}
    (h : s.pending = .write 0 w :: rest) : step s = writeCmd w { s with pending := rest } := by
  rw [step, h]
  rfl

theorem writeCmd_encode (i : Instr) (s : State) : writeCmd (encode i) s = exec i s := by
  rw [writeCmd, decode_encode]

/-- A word outside R64's list decodes to no command. -/
theorem writeCmd_of_notMem_legalWords {w : Word} (h : w ∉ legalWords) (s : State) :
    writeCmd w s = .next (takeIllegalWord w s) := by
  obtain ⟨why, hd⟩ := exists_illegal_of_ne_command fun i hi =>
    h ((mem_legalWords_iff w).2 ⟨i, eq_encode_of_decode hi⟩)
  rw [writeCmd, hd]

/-- Settles O7: the written word decodes to no command, so the ILLEGAL_COMMAND result is taken. -/
theorem illegalWordResult : Obligations.IllegalWordResult := by
  unfold Obligations.IllegalWordResult
  intro s w rest hpend hw
  exact (step_write_cmd hpend).trans (writeCmd_of_notMem_legalWords hw _)

/-! ### The two tests on the frame (R153, R154) -/

/-- R153: the frame is no input for the codec command i. -/
abbrev InvalidFrame (i : Instr) (s : State) : Prop :=
  s.fovf = true ∨ (s.fb = [] ∧ i ≠ .pcnt)

/-- R154: the output of i would not fit OB. -/
abbrev OutputOverflows (i : Instr) (s : State) : Prop :=
  (i = .henc ∧ s.fb.length + pbc s.fb.length > s.cfg.nmax) ∨
    (i = .fgen ∧ s.fb.length + 16 > s.cfg.nmax)

theorem exec_codec_of_invalidFrame {i : Instr} {s : State} (hi : i.isCodec = true)
    (h : InvalidFrame i s) :
    exec i s = .next (raiseTag .invalidInput (setCmd (encode i) s)) := by
  by_cases hpcnt : i = .pcnt
  · subst hpcnt
    exact exec_pcnt_of_fovf_true (h.resolve_right fun ⟨_, hne⟩ => hne rfl)
  · exact exec_codec_of_frameRejected hi hpcnt ((frameRejected_iff s).2 (h.imp_right And.left))

/-- PCNT alone accepts an empty frame. -/
theorem frameRejected_eq_false_of_not_invalidFrame {i : Instr} {s : State} (hpcnt : i ≠ .pcnt)
    (h : ¬ InvalidFrame i s) : frameRejected s = false := by
  rw [← Bool.not_eq_true, frameRejected_iff]
  exact fun hrej => h (hrej.imp_right fun hfb => ⟨hfb, hpcnt⟩)

theorem exec_of_outputOverflows {i : Instr} {s : State} (hvalid : ¬ InvalidFrame i s)
    (h : OutputOverflows i s) :
    exec i s = .next (raiseTag .outputOverflow (setCmd (encode i) s)) := by
  obtain ⟨rfl, hlong⟩ | ⟨rfl, hlong⟩ := h
  · exact exec_henc_of_lt (frameRejected_eq_false_of_not_invalidFrame (by decide) hvalid) hlong
  · exact exec_fgen_of_lt (frameRejected_eq_false_of_not_invalidFrame (by decide) hvalid) hlong

/-! ### The command's own outcome (R95, R134, R155) -/

/-- The outcome of a Hamming decode of t (R95). -/
def hammingTag (t : List Bit) : Tag :=
  if synd t = 0 then .noError else if synd t < t.length then .corrected else .uncorrectable

/-- The outcome of a Fletcher check of t (R134, R136). -/
def fletcherTag (t : List Bit) : Tag :=
  if t.length < 16 then .checksumMismatch
  else if fcs (payload t) = val (received t) then .valid
  else .checksumMismatch

/-- The tag of the codec command i on a frame t that passes the tests of R153 and R154. -/
def ownTag (i : Instr) (t : List Bit) : Tag :=
  match i with
  | .hdec => hammingTag t
  | .hdecx => hammingTag t
  | .fver => fletcherTag t
  | _ => .done

theorem hammingTag_cases (t : List Bit) :
    hammingTag t = .noError ∨ hammingTag t = .corrected ∨ hammingTag t = .uncorrectable := by
  unfold hammingTag
  split_ifs <;> simp

theorem fletcherTag_cases (t : List Bit) :
    fletcherTag t = .valid ∨ fletcherTag t = .checksumMismatch := by
  unfold fletcherTag
  split_ifs <;> simp

/-- A command's own outcome is none of the error results of R153 and R154. -/
theorem ownTag_ne_error (i : Instr) (t : List Bit) :
    ownTag i t ≠ .invalidInput ∧ ownTag i t ≠ .outputOverflow := by
  have hdone : Tag.done ≠ .invalidInput ∧ Tag.done ≠ .outputOverflow := by decide
  have hhamming : hammingTag t ≠ .invalidInput ∧ hammingTag t ≠ .outputOverflow := by
    obtain h | h | h := hammingTag_cases t <;> simp [h]
  have hfletcher : fletcherTag t ≠ .invalidInput ∧ fletcherTag t ≠ .outputOverflow := by
    obtain h | h := fletcherTag_cases t <;> simp [h]
  cases i with
  | hdec => exact hhamming
  | hdecx => exact hhamming
  | fver => exact hfletcher
  | _ => exact hdone

theorem hammingDecode_tag (clean : List Bit) (s : State) :
    (hammingDecode clean s).tag = hammingTag s.fb := by
  unfold hammingTag
  obtain ⟨h0, heq⟩ | ⟨hpos, hlt, heq⟩ | ⟨hpos, hle, heq⟩ := hammingDecode_cases clean s
  · rw [heq, if_pos h0, result_tag]
  · rw [heq, if_neg hpos.ne', if_pos hlt, result_tag]
  · rw [heq, if_neg hpos.ne', if_neg hle.not_gt, result_tag]

theorem exec_fver_tag {s : State} (hs : frameRejected s = false) :
    ∃ t, exec .fver s = .next t ∧ t.tag = fletcherTag s.fb := by
  unfold fletcherTag
  by_cases hshort : s.fb.length < 16
  · exact ⟨_, exec_fver_of_length_lt hs hshort, by rw [if_pos hshort, raiseTag_tag]⟩
  · have hfovf : s.fovf = false := (Bool.or_eq_false_iff.1 hs).1
    refine ⟨_, exec_fver_of_eq_append hfovf (payload_append_received s.fb).symm
      (length_received (Nat.le_of_not_lt hshort)), ?_⟩
    rw [if_neg hshort, apply_ite State.tag]
    rfl

theorem exec_codec_of_accepted {i : Instr} {s : State} (hi : i.isCodec = true)
    (hvalid : ¬ InvalidFrame i s) (hfit : ¬ OutputOverflows i s) :
    ∃ t, exec i s = .next t ∧ t.tag = ownTag i s.fb := by
  have hs : i ≠ .pcnt → frameRejected s = false :=
    fun hpcnt => frameRejected_eq_false_of_not_invalidFrame hpcnt hvalid
  cases i with
  | clr => simp [Instr.isCodec] at hi
  | push b => simp [Instr.isCodec] at hi
  | pcnt => exact ⟨_, exec_pcnt_of_fovf_false (by simpa using hvalid), rfl⟩
  | henc => exact ⟨_, exec_henc_of_le (hs (by decide)) (by simpa using hfit), rfl⟩
  | hdec => exact ⟨_, exec_hdec_of_accepted (hs (by decide)), hammingDecode_tag _ _⟩
  | hdecx => exact ⟨_, exec_hdecx_of_accepted (hs (by decide)), hammingDecode_tag _ _⟩
  | fgen => exact ⟨_, exec_fgen_of_le (hs (by decide)) (by simpa using hfit), rfl⟩
  | fver => exact exec_fver_tag (hs (by decide))

/-! ### The tag of a command (R155) -/

/-- The tag a codec command reports: the tests on the frame in their order, then its own outcome. -/
def codecTag (i : Instr) (s : State) : Tag :=
  if InvalidFrame i s then .invalidInput
  else if OutputOverflows i s then .outputOverflow
  else ownTag i s.fb

theorem exec_codec_tag {i : Instr} (s : State) (hi : i.isCodec = true) :
    ∃ t, exec i s = .next t ∧ t.tag = codecTag i s := by
  unfold codecTag
  split_ifs with hinvalid hlong
  · exact ⟨_, exec_codec_of_invalidFrame hi hinvalid, rfl⟩
  · exact ⟨_, exec_of_outputOverflows hinvalid hlong, rfl⟩
  · exact exec_codec_of_accepted hi hinvalid hlong

theorem tag_of_exec_codec {i : Instr} {s t : State} (hi : i.isCodec = true)
    (h : exec i s = .next t) : t.tag = codecTag i s := by
  obtain ⟨u, hu, htag⟩ := exec_codec_tag s hi
  rwa [Host.Outcome.next.inj (h.symm.trans hu)]

theorem invalidFrame_of_codecTag {i : Instr} {s : State} (h : codecTag i s = .invalidInput) :
    InvalidFrame i s := by
  unfold codecTag at h
  split_ifs at h with hinvalid hlong
  · exact hinvalid
  · exact absurd h (ownTag_ne_error i s.fb).1

theorem outputOverflows_of_codecTag {i : Instr} {s : State} (h : codecTag i s = .outputOverflow) :
    OutputOverflows i s := by
  unfold codecTag at h
  split_ifs at h with hinvalid hlong
  · exact hlong
  · exact absurd h (ownTag_ne_error i s.fb).2

/-- A frame command keeps TAG (R80, R81). -/
theorem exec_frame_tag {i : Instr} (s : State) (hi : i.isCodec = false) :
    ∃ t, exec i s = .next t ∧ t.tag = s.tag := by
  obtain ⟨-, heq⟩ | ⟨b, -, heq⟩ | ⟨hcodec, -⟩ := exec_cases i s
  · exact ⟨_, heq, rfl⟩
  · exact ⟨_, heq, by rw [appendBit_tag, setCmd_tag]⟩
  · simp [hi] at hcodec

/-- Settles O38: the test of R153 comes first, and no later outcome is INVALID_INPUT. -/
theorem invalidInputExactly : Obligations.InvalidInputExactly := by
  unfold Obligations.InvalidInputExactly
  intro i s hi
  refine ⟨exec_codec_of_invalidFrame hi, fun t h ht => ?_⟩
  rw [tag_of_exec_codec hi h] at ht
  exact invalidFrame_of_codecTag ht

/-- Settles O39: on a frame that is not rejected the test of R154 comes next, and no other outcome is
OUTPUT_OVERFLOW. -/
theorem outputOverflowExactly : Obligations.OutputOverflowExactly := by
  unfold Obligations.OutputOverflowExactly
  intro i s hi hfovf hfb
  have hvalid : ¬ InvalidFrame i s := by simp [hfovf, hfb]
  refine ⟨exec_of_outputOverflows hvalid, fun t h ht => ?_⟩
  rw [tag_of_exec_codec hi h] at ht
  exact outputOverflows_of_codecTag ht

/-! ### The order of tests on the written word (R155) -/

theorem encode_inj {i j : Instr} : encode i = encode j ↔ i = j :=
  ⟨fun h => Decoded.command.inj (by rw [← decode_encode i, h, decode_encode]), congrArg encode⟩

theorem encode_mem_legalWords (i : Instr) : encode i ∈ legalWords := (mem_legalWords_iff _).2 ⟨i, rfl⟩

/-- The words of CLR and PUSH are those of the frame commands. -/
theorem encode_mem_frameWords_iff (i : Instr) :
    encode i ∈ [encode .clr, encode (.push false), encode (.push true)] ↔ i.isCodec = false := by
  cases i <;> simp [encode_inj, Instr.isCodec]

/-- R155's order of tests on the word itself: the tag after a write of w to CMD. -/
def tagOfWord (w : Word) (s : State) : Tag :=
  if w ∉ legalWords then .illegalCommand
  else if w ∈ [encode .clr, encode (.push false), encode (.push true)] then s.tag
  else if s.fovf = true then .invalidInput
  else if s.fb = [] ∧ w ≠ encode .pcnt then .invalidInput
  else if (w = encode .henc ∧ s.fb.length + pbc s.fb.length > s.cfg.nmax) ∨
      (w = encode .fgen ∧ s.fb.length + 16 > s.cfg.nmax) then .outputOverflow
  else if w ∈ [encode .pcnt, encode .henc, encode .fgen] then .done
  else if w ∈ [encode .hdec, encode .hdecx] then hammingTag s.fb
  else fletcherTag s.fb

theorem tagOfWord_encode_frame {i : Instr} (s : State) (hi : i.isCodec = false) :
    tagOfWord (encode i) s = s.tag := by
  rw [tagOfWord, if_neg (not_not.2 (encode_mem_legalWords i)),
    if_pos ((encode_mem_frameWords_iff i).2 hi)]

/-- On the words of codec commands the last two tests select the command's own outcome. -/
theorem ownTag_eq_of_isCodec {i : Instr} (t : List Bit) (hi : i.isCodec = true) :
    ownTag i t =
      if encode i ∈ [encode .pcnt, encode .henc, encode .fgen] then .done
      else if encode i ∈ [encode .hdec, encode .hdecx] then hammingTag t
      else fletcherTag t := by
  cases i with
  | clr => simp [Instr.isCodec] at hi
  | push b => simp [Instr.isCodec] at hi
  | _ => simp [ownTag, encode_inj]

theorem tagOfWord_encode_codec {i : Instr} (s : State) (hi : i.isCodec = true) :
    tagOfWord (encode i) s = codecTag i s := by
  have hframe : encode i ∉ [encode .clr, encode (.push false), encode (.push true)] := by
    rw [encode_mem_frameWords_iff, hi]
    decide
  rw [tagOfWord, if_neg (not_not.2 (encode_mem_legalWords i)), if_neg hframe, codecTag,
    ownTag_eq_of_isCodec s.fb hi]
  simp only [InvalidFrame, OutputOverflows, ite_or, ne_eq, encode_inj]

/-- A write of CMD goes on and reports the tag R155 selects. -/
theorem writeCmd_tag (w : Word) (s : State) :
    ∃ t, writeCmd w s = .next t ∧ t.tag = tagOfWord w s := by
  by_cases hw : w ∈ legalWords
  · obtain ⟨i, rfl⟩ := (mem_legalWords_iff w).1 hw
    rw [writeCmd_encode]
    cases hi : i.isCodec with
    | false => exact tagOfWord_encode_frame s hi ▸ exec_frame_tag s hi
    | true => exact tagOfWord_encode_codec s hi ▸ exec_codec_tag s hi
  · exact ⟨_, writeCmd_of_notMem_legalWords hw s, (if_pos hw).symm⟩

/-- Settles O40: the step is a write of CMD, whose tag R155's order selects; illegal words,
frame commands and codec commands each at their own test. -/
theorem tagPriority : Obligations.TagPriority := by
  unfold Obligations.TagPriority
  intro s w rest hpend
  rw [step_write_cmd hpend]
  exact writeCmd_tag w { s with pending := rest }

end Sys2Proof.Machine
end

section
/-! The decoder and the encoder as inverses (R61 to R64): the nine legal words and the names of the
illegal ones.
-/
namespace Sys2Proof

/-- Settles O3: each command's word decodes to it, and a word that decodes to a command is its word. -/
theorem decodeEncodeInverse : Obligations.DecodeEncodeInverse := by
  unfold Obligations.DecodeEncodeInverse
  exact ⟨fun i _ => decode_encode i, fun _ _ h => (eq_encode_of_decode h).symm⟩

/-- Settles O1: each of the nine words is the encoding of the command it stands for. -/
theorem legalWordsDecode : Obligations.LegalWordsDecode := by
  unfold Obligations.LegalWordsDecode
  exact ⟨decode_encode .clr, decode_encode (.push false), decode_encode (.push true),
    decode_encode .pcnt, decode_encode .henc, decode_encode .hdec, decode_encode .hdecx,
    decode_encode .fgen, decode_encode .fver⟩

theorem opcodeField_eq_ofNat (w : Word) : opcodeField w = BitVec.ofNat 8 w.toNat :=
  BitVec.eq_of_toNat_eq (by rw [toNat_opcodeField, BitVec.toNat_ofNat])

/-- An opcode that no format-N row has is named by itself (log 24). -/
theorem decodeFormatN_of_notMem {op : BitVec 8} (h : op.toNat ∉ formatNTable.map Prod.fst) :
    decodeFormatN op = .illegal (.unassignedOpcode op) := by
  have hne : ∀ n ∈ formatNTable.map Prod.fst, op ≠ BitVec.ofNat 8 n := by
    rintro n hn rfl
    have hlt : n < 2 ^ 8 := by revert n; decide
    rw [BitVec.toNat_ofNat, Nat.mod_eq_of_lt hlt] at h
    exact h hn
  simp only [formatNTable, List.map_cons, List.map_nil, List.forall_mem_cons] at hne
  obtain ⟨hclr, hpcnt, hhenc, hhdec, hhdecx, hfgen, hfver, -⟩ := hne
  rw [decodeFormatN, if_neg hclr, if_neg hpcnt, if_neg hhenc, if_neg hhdec, if_neg hhdecx,
    if_neg hfgen, if_neg hfver]

/-- Settles O49: the decoder's laws name the test that rejects the word. -/
theorem illegalWordNames : Obligations.IllegalWordNames := by
  unfold Obligations.IllegalWordNames
  refine fun w => ⟨fun hu => ?_, decode_of_operandBit, fun hu hb hop => ?_⟩
  · exact decode_of_upperField_ne (mt (upperField_eq_zero_iff w).1 hu)
  · have hpush : w.toNat % 256 ≠ 0x02 := fun h => hop (by simp [h])
    have htable : (opcodeField w).toNat ∉ formatNTable.map Prod.fst := by
      rw [toNat_opcodeField]
      exact fun h => hop (List.mem_of_mem_erase (b := 0x02) (by simpa [formatNTable] using h))
    rw [decode_of_formatN hu hpush hb, decodeFormatN_of_notMem htable, opcodeField_eq_ofNat]

end Sys2Proof
end

section
/-! The step and the host's accesses (R41 to R44, R47, R170): one lemma per kind of event, what the host
reads, and that nothing stops the block.
-/
namespace Sys2Proof.Machine

/-! ### The step, event by event -/

theorem step_of_pending_nil {s : State} (h : s.pending = []) : step s = .next s := by
  rw [step, h]
  rfl

theorem step_of_pending_cons {s : State} {e : HostEvent} {rest : List HostEvent}
    (h : s.pending = e :: rest) : step s = applyEvent e { s with pending := rest } := by
  rw [step, h]

theorem writeCmd_of_decode {w : Word} {i : Instr} (h : decode w = .command i) (s : State) :
    writeCmd w s = exec i s := by
  rw [eq_encode_of_decode h, writeCmd_encode]

theorem withFetchWord_encode (i : Instr) (s : State) :
    s.withFetchWord 32 (encode i).toNat =
      { s with pending := .write 0 (encode i) :: s.pending } := by
  have hw : tableWord 32 (encode i).toNat = encode i := by
    rw [tableWord, Nat.mod_eq_of_lt (encode i).isLt, BitVec.ofNat_toNat, BitVec.setWidth_eq]
  rw [State.withFetchWord, hw]

theorem decodeTableWord_encode (i : Instr) : decodeTableWord 32 (encode i).toNat = some i := by
  have hlt : (encode i).toNat < 2 ^ 32 := (encode i).isLt
  rw [decodeTableWord, Nat.mod_eq_of_lt hlt, if_pos hlt, BitVec.ofNat_toNat, BitVec.setWidth_eq,
    decode_encode]
  rfl

/-- Settles O4: a write of CMD runs the word, and the word is the command's. -/
theorem stepRunsDecodedCommand : Obligations.StepRunsDecodedCommand := by
  unfold Obligations.StepRunsDecodedCommand
  intro s w i rest hpend hd
  rw [step_write_cmd hpend, writeCmd_of_decode hd]

/-- Settles O5: the placed word is the command's own, on both sides of the interface. -/
theorem placedWordRunsNext : Obligations.PlacedWordRunsNext := by
  unfold Obligations.PlacedWordRunsNext
  refine fun i s => ⟨?_, decodeTableWord_encode i⟩
  rw [withFetchWord_encode]
  exact (step_write_cmd rfl).trans (writeCmd_encode i s)

/-- Settles O6: an idle step answers the state it found. -/
theorem nothingRunsWithoutHost : Obligations.NothingRunsWithoutHost := by
  unfold Obligations.NothingRunsWithoutHost
  exact fun _ => step_of_pending_nil

/-- Settles O10: a write of another index is ignored, a write of CMD runs the word, and a read adds its
reply. -/
theorem onlyCmdWritesChangeTheBlock : Obligations.OnlyCmdWritesChangeTheBlock := by
  unfold Obligations.OnlyCmdWritesChangeTheBlock
  refine fun s rest => ⟨fun i w hpend hi => ?_, fun w => step_write_cmd, fun space i hpend => ?_⟩
  · exact (step_of_pending_cons hpend).trans (if_neg hi)
  · exact ⟨_, step_of_pending_cons hpend⟩

/-- Settles O13: the event is taken from the queue and the block reset. -/
theorem resetEventRestoresReset : Obligations.ResetEventRestoresReset := by
  unfold Obligations.ResetEventRestoresReset
  exact fun _ _ => step_of_pending_cons

/-! ### What the host reads (R20, R41, R43, R44) -/

/-- The fields of STATUS do not overlap (R20). -/
theorem toNat_statusWord (s : State) :
    (statusWord s).toNat = s.tag.code.toNat + 16 * s.fovf.toNat := by
  rw [statusWord, BitVec.toNat_append, ← Nat.shiftLeft_add_eq_or_of_lt s.tag.code.isLt,
    BitVec.toNat_append, BitVec.toNat_zero, Nat.zero_shiftLeft, Nat.zero_or, BitVec.toNat_ofBool,
    Nat.shiftLeft_eq]
  omega

/-- SUM2 lies above SUM1 (R31). -/
theorem toNat_csum (s : State) : s.csum.toNat = s.sum1.toNat + 256 * s.sum2.toNat := by
  have hlt : s.csum.toNat < 2 ^ 16 := s.csum.isLt
  simp only [State.sum1, State.sum2, BitVec.extractLsb'_toNat, Nat.shiftRight_eq_div_pow]
  omega

theorem toNat_setWidth_32 (v : BitVec 16) : (v.setWidth 32).toNat = v.toNat :=
  BitVec.toNat_setWidth_of_le (by decide)

theorem readReg_of_le (s : State) {i : Nat} (h : 9 ≤ i) : readReg s i = 0#32 := by
  obtain ⟨k, rfl⟩ := Nat.exists_eq_add_of_le' h
  rfl

theorem code_lt_ten (tag : Tag) : tag.code.toNat < 10 := by
  cases tag <;> decide

theorem getD_eq_dite (t : List Bit) (k : Nat) :
    t.getD k false = if h : k < t.length then t[k] else false := by
  split
  · next h => exact List.getD_eq_getElem _ _ h
  · next h => exact List.getD_eq_default _ _ (Nat.le_of_not_lt h)

/-- Settles O8: the reply is the register's word, whose fields lie as R20 says. -/
theorem hostReadsRegisters : Obligations.HostReadsRegisters := by
  unfold Obligations.HostReadsRegisters
  refine ⟨fun s i rest => step_of_pending_cons, fun s => ?_⟩
  exact ⟨rfl, toNat_statusWord s, rfl, rfl, rfl, rfl, rfl,
    (toNat_setWidth_32 s.csum).trans (toNat_csum s), toNat_setWidth_32 s.rcsum,
    fun i => readReg_of_le s⟩

/-- Settles O9: the reply is the cell in use, or 0. -/
theorem hostReadsBufferCells : Obligations.HostReadsBufferCells := by
  unfold Obligations.HostReadsBufferCells
  intro s k rest
  rw [← getD_eq_dite, ← getD_eq_dite]
  exact ⟨step_of_pending_cons, step_of_pending_cons⟩

/-- Settles O11: the TAG field is one of the ten codes, all below 10. -/
theorem tagCodes : Obligations.TagCodes := by
  unfold Obligations.TagCodes
  refine ⟨by decide, fun s => ?_⟩
  have hlt := code_lt_ten s.tag
  change (statusWord s).toNat % 16 < 10
  rw [toNat_statusWord]
  omega

end Sys2Proof.Machine
end

section
/-! What one event does to the block, said once (R23, R42, R47, R170), and what follows for every event:
nothing stops the block, TAG becomes IDLE by reset alone, and who writes what.
-/
namespace Sys2Proof.Machine

/-! ### The effect of an event -/

/-- The state t after the event e in the state s, e being no longer pending. -/
inductive EventEffect (s : State) : HostEvent → State → Prop
  | reset : EventEffect s .reset (takeReset s)
  | read (space : Space) (i : Nat) : EventEffect s (.read space i) (deliver (hostRead s space i) s)
  | ignored (i : Nat) (w : Word) (hi : i ≠ 0) : EventEffect s (.write i w) s
  | clr : EventEffect s (.write 0 (encode .clr)) (clearFrame (setCmd (encode .clr) s))
  | push (b : Bit) :
      EventEffect s (.write 0 (encode (.push b))) (appendBit b (setCmd (encode (.push b)) s))
  | codec {i : Instr} {tag : Tag} {p S pos c rc : Nat} {out : List Bit} (hi : i.isCodec = true)
      (hrow : CodecRow s tag p S pos c rc out) :
      EventEffect s (.write 0 (encode i)) (result tag p S pos c rc out (setCmd (encode i) s))
  | illegal (w : Word) (hw : w ∉ legalWords) : EventEffect s (.write 0 w) (takeIllegalWord w s)

theorem exec_effect (i : Instr) (s : State) :
    ∃ t, exec i s = .next t ∧ EventEffect s (.write 0 (encode i)) t := by
  obtain ⟨rfl, heq⟩ | ⟨b, rfl, heq⟩ | ⟨hi, tag, p, S, pos, c, rc, out, hrow, heq⟩ := exec_cases i s
  · exact ⟨_, heq, .clr⟩
  · exact ⟨_, heq, .push b⟩
  · exact ⟨_, heq, .codec hi hrow⟩

theorem writeCmd_effect (w : Word) (s : State) :
    ∃ t, writeCmd w s = .next t ∧ EventEffect s (.write 0 w) t := by
  by_cases hw : w ∈ legalWords
  · obtain ⟨i, rfl⟩ := (mem_legalWords_iff w).1 hw
    rw [writeCmd_encode]
    exact exec_effect i s
  · exact ⟨_, writeCmd_of_notMem_legalWords hw s, .illegal w hw⟩

theorem applyEvent_effect (e : HostEvent) (s : State) :
    ∃ t, applyEvent e s = .next t ∧ EventEffect s e t := by
  cases e with
  | reset => exact ⟨_, rfl, .reset⟩
  | read space i => exact ⟨_, rfl, .read space i⟩
  | write i w =>
    by_cases hi : i = 0
    · subst hi
      exact writeCmd_effect w s
    · exact ⟨s, if_neg hi, .ignored i w hi⟩

theorem effect_of_exec {i : Instr} {s t : State} (h : exec i s = .next t) :
    EventEffect s (.write 0 (encode i)) t := by
  obtain ⟨u, hu, heff⟩ := exec_effect i s
  rwa [Host.Outcome.next.inj (h.symm.trans hu)]

/-- A step is idle or takes the oldest event. -/
theorem step_next_cases {s t : State} (h : step s = .next t) :
    (s.pending = [] ∧ t = s) ∨
    ∃ e rest, s.pending = e :: rest ∧ EventEffect { s with pending := rest } e t := by
  cases hp : s.pending with
  | nil => exact .inl ⟨rfl, Host.Outcome.next.inj (h.symm.trans (step_of_pending_nil hp))⟩
  | cons e rest =>
    obtain ⟨u, hu, heff⟩ := applyEvent_effect e { s with pending := rest }
    rw [step_of_pending_cons hp] at h
    exact .inr ⟨e, rest, rfl, Host.Outcome.next.inj (h.symm.trans hu) ▸ heff⟩

/-! ### Nothing stops the block (R68, R150) -/

theorem step_goesOn (s : State) : GoesOn (step s) := by
  cases hp : s.pending with
  | nil => exact ⟨s, step_of_pending_nil hp⟩
  | cons e rest =>
    obtain ⟨t, ht, -⟩ := applyEvent_effect e { s with pending := rest }
    exact ⟨t, (step_of_pending_cons hp).trans ht⟩

theorem EventEffect.pending_eq {s t : State} {e : HostEvent} (h : EventEffect s e t) :
    t.pending = s.pending := by
  cases h with
  | push b => rw [appendBit_pending, setCmd_pending]
  | _ => rfl

/-- A write of CMD leaves its word in CMD (R23). -/
theorem EventEffect.cmd_eq {s t : State} {w : Word} (h : EventEffect s (.write 0 w) t) :
    t.cmd = w := by
  cases h with
  | ignored _ _ hi => exact absurd rfl hi
  | push b => rw [appendBit_cmd, setCmd_cmd]
  | _ => rfl

/-- Settles O41: every event and every command has an effect, and a write of CMD leaves its word there. -/
theorem nothingStopsTheBlock : Obligations.NothingStopsTheBlock := by
  unfold Obligations.NothingStopsTheBlock
  refine ⟨step_goesOn, fun i s => ?_, fun s w rest hpend => ?_⟩
  · obtain ⟨t, ht, -⟩ := exec_effect i s
    exact ⟨t, ht⟩
  · obtain ⟨t, ht, heff⟩ := writeCmd_effect w { s with pending := rest }
    exact ⟨t, (step_write_cmd hpend).trans ht, heff.cmd_eq, heff.pending_eq⟩

/-! ### IDLE (R151) -/

theorem EventEffect.tag_idle {s t : State} {e : HostEvent} (h : EventEffect s e t)
    (ht : t.tag = .idle) : s.tag = .idle ∨ e = .reset := by
  cases h with
  | reset => exact .inr rfl
  | read => exact .inl ht
  | ignored => exact .inl ht
  | clr => exact .inl ht
  | push b => exact .inl (by rwa [appendBit_tag, setCmd_tag] at ht)
  | codec _ hrow => exact absurd ht hrow.tag_ne_idle
  | illegal w => cases ht

/-- Settles O46: an idle step keeps TAG, and of the events only reset makes it IDLE. -/
theorem idleOnlyFromReset : Obligations.IdleOnlyFromReset := by
  unfold Obligations.IdleOnlyFromReset
  intro s t hstep ht
  obtain ⟨-, rfl⟩ | ⟨e, rest, hpend, heff⟩ := step_next_cases hstep
  · exact .inl ht
  · obtain hidle | rfl := heff.tag_idle ht
    · exact .inl hidle
    · exact .inr ⟨rest, hpend⟩

/-! ### Who writes what (R25, R26, R33, R172, R174) -/

theorem EventEffect.cfg_eq {s t : State} {e : HostEvent} (h : EventEffect s e t) :
    t.cfg = s.cfg := by
  cases h with
  | push b => rw [appendBit_cfg, setCmd_cfg]
  | _ => rfl

theorem encode_push_mem (b : Bit) :
    encode (.push b) = 0x00000002#32 ∨ encode (.push b) = 0x00000102#32 := by
  cases b
  · exact .inl rfl
  · exact .inr rfl

theorem EventEffect.fb_writers {s t : State} {e : HostEvent} (h : EventEffect s e t)
    (hne : t.fb ≠ s.fb) : e = .reset ∨ e = .write 0 0x00000001#32 ∨ e = .write 0 0x00000002#32 ∨
      e = .write 0 0x00000102#32 := by
  cases h with
  | reset => exact .inl rfl
  | clr => exact .inr (.inl rfl)
  | push b =>
    exact .inr (.inr ((encode_push_mem b).imp (congrArg _) (congrArg _)))
  | _ => exact absurd rfl hne

theorem EventEffect.fovf_clearers {s t : State} {e : HostEvent} (h : EventEffect s e t)
    (hs : s.fovf = true) (ht : t.fovf = false) : e = .reset ∨ e = .write 0 0x00000001#32 := by
  cases h with
  | reset => exact .inl rfl
  | clr => exact .inr rfl
  | push b =>
    have hset := (appendBit_fovf b (setCmd (encode (.push b)) s)).2 (.inl hs)
    exact absurd hset (ne_true_of_eq_false ht)
  | _ => exact absurd (hs.symm.trans ht) (by decide)

theorem EventEffect.fovf_setters {s t : State} {e : HostEvent} (h : EventEffect s e t)
    (hs : s.fovf = false) (ht : t.fovf = true) :
    (e = .write 0 0x00000002#32 ∨ e = .write 0 0x00000102#32) ∧ s.cfg.nmax ≤ s.fb.length := by
  cases h with
  | reset => cases ht
  | clr => cases ht
  | push b =>
    have hfull := ((appendBit_fovf b (setCmd _ s)).1 ht).resolve_left (ne_true_of_eq_false hs)
    exact ⟨(encode_push_mem b).imp (congrArg _) (congrArg _), hfull⟩
  | _ => exact absurd (hs.symm.trans ht) (by decide)

/-- What a codec command writes. -/
def resultRegisters (s : State) : Tag × Word × Word × Word × BitVec 16 × BitVec 16 × List Bit :=
  (s.tag, s.p, s.synd, s.pos, s.csum, s.rcsum, s.ob)

theorem resultRegisters_appendBit (b : Bit) (s : State) :
    resultRegisters (appendBit b s) = resultRegisters s := by
  simp [resultRegisters]

theorem EventEffect.result_writers {s t : State} {e : HostEvent} (h : EventEffect s e t)
    (hne : resultRegisters t ≠ resultRegisters s) : e = .reset ∨
      ∃ w, e = .write 0 w ∧ w ∉ [encode .clr, encode (.push false), encode (.push true)] := by
  cases h with
  | reset => exact .inl rfl
  | push b => exact absurd (resultRegisters_appendBit b _) hne
  | codec hi =>
    refine .inr ⟨_, rfl, fun hmem => ?_⟩
    rw [(encode_mem_frameWords_iff _).1 hmem] at hi
    cases hi
  | illegal w hw =>
    refine .inr ⟨w, rfl, fun hmem => hw ?_⟩
    simp only [List.mem_cons, List.not_mem_nil, or_false] at hmem
    obtain rfl | rfl | rfl := hmem <;> exact encode_mem_legalWords _
  | _ => exact absurd rfl hne

/-- Settles O45: by the effect of the event the step takes. -/
theorem whoWritesWhat : Obligations.WhoWritesWhat := by
  unfold Obligations.WhoWritesWhat
  intro s t e rest hpend hstep
  obtain ⟨u, hu, heff⟩ := applyEvent_effect e { s with pending := rest }
  obtain rfl : u = t := Host.Outcome.next.inj
    (hu.symm.trans ((step_of_pending_cons hpend).symm.trans hstep))
  exact ⟨heff.fb_writers, heff.fovf_clearers, heff.fovf_setters, heff.result_writers, heff.cfg_eq,
    heff.pending_eq⟩

end Sys2Proof.Machine
end

section
/-! The invariant of the block (R5, R20, R21, R82, the table of results): reset meets it, every event
keeps it, and under it no register truncates its number.
-/
namespace Sys2Proof.Machine

/-! ### Numbers in registers (R21) -/

theorem config_wf_iff (c : Config) :
    c.wf = true ↔ 32 ≤ c.nmax ∧ c.nmax ≤ 2 ^ 30 ∧ c.nmax % 8 = 0 := by
  simp [Config.wf, and_assoc]

theorem toNat_toWord {n : Nat} (h : n < 2 ^ 32) : (toWord n).toNat = n :=
  (BitVec.toNat_ofNat _ _).trans (Nat.mod_eq_of_lt h)

theorem toNat_toField {n : Nat} (h : n < 2 ^ 16) : (toField n).toNat = n :=
  (BitVec.toNat_ofNat _ _).trans (Nat.mod_eq_of_lt h)

theorem toWord_ne_zero {n : Nat} (hpos : 0 < n) (h : n < 2 ^ 32) : toWord n ≠ 0#32 := by
  intro h0
  have := toNat_toWord h
  rw [h0] at this
  exact absurd this hpos.ne

/-- A frame that fits FB has at most 31 parity bits (R21). -/
theorem pbc_le_31_of_wf {c : Config} {n : Nat} (hc : c.wf = true) (hn : n ≤ c.nmax) :
    pbc n ≤ 31 := by
  obtain ⟨-, hmax, -⟩ := (config_wf_iff c).1 hc
  exact pbc_le_31 (hn.trans hmax)

theorem lt_two_pow_31 {S p : Nat} (hp : p ≤ 31) (hS : S < 2 ^ p) : S < 2 ^ 31 :=
  hS.trans_le (Nat.pow_le_pow_right (by decide) hp)

/-! ### The rows of results -/

/-- The numbers of a row: P is at most the count of the frame, SYND has P bits, and CSUM is a checksum,
0 being the one of the empty string. -/
theorem CodecRow.numbers {s : State} {tag : Tag} {p S pos c rc : Nat} {out : List Bit}
    (h : CodecRow s tag p S pos c rc out) :
    p ≤ pbc s.fb.length ∧ S < 2 ^ p ∧ ∃ t, c = fcs t := by
  have hzero : ∃ t, 0 = fcs t := ⟨[], rfl⟩
  have hsynd : synd s.fb < 2 ^ pbc s.fb.length := synd_lt_two_pow_pbc s.fb
  cases h with
  | invalidInput => exact ⟨Nat.zero_le _, Nat.two_pow_pos _, hzero⟩
  | outputOverflow => exact ⟨Nat.zero_le _, Nat.two_pow_pos _, hzero⟩
  | pcnt => exact ⟨le_rfl, Nat.two_pow_pos _, hzero⟩
  | henc => exact ⟨le_rfl, Nat.two_pow_pos _, hzero⟩
  | hdecClean => exact ⟨le_rfl, Nat.two_pow_pos _, hzero⟩
  | hdecxClean => exact ⟨le_rfl, Nat.two_pow_pos _, hzero⟩
  | corrected => exact ⟨le_rfl, hsynd, hzero⟩
  | uncorrectable => exact ⟨le_rfl, hsynd, hzero⟩
  | fgen => exact ⟨Nat.zero_le _, Nat.two_pow_pos _, _, rfl⟩
  | fverShort => exact ⟨Nat.zero_le _, Nat.two_pow_pos _, hzero⟩
  | valid => exact ⟨Nat.zero_le _, Nat.two_pow_pos _, _, rfl⟩
  | mismatch => exact ⟨Nat.zero_le _, Nat.two_pow_pos _, _, rfl⟩

/-- Every output fits OB (R27, R154). -/
theorem CodecRow.length_out_le {s : State} {tag : Tag} {p S pos c rc : Nat} {out : List Bit}
    (h : CodecRow s tag p S pos c rc out) (hc : s.cfg.wf = true) (hfb : s.fb.length ≤ s.cfg.nmax) :
    out.length ≤ s.cfg.nmax := by
  cases h with
  | henc hfit => rwa [length_hammingEncode]
  | hdecClean => exact hfb
  | hdecxClean => exact length_pad8_strip_le _ hc hfb
  | corrected => rwa [length_flipAt]
  | fgen hfit => rwa [length_fletcherGen]
  | valid => exact (List.length_take_le' _ _).trans hfb
  | _ => exact Nat.zero_le _

theorem CodecRow.resultRow_result {s : State} {tag : Tag} {p S pos c rc : Nat} {out : List Bit}
    (h : CodecRow s tag p S pos c rc out) (hS : S < 2 ^ 31) (u : State) :
    resultRow (result tag p S pos c rc out u) = true := by
  have hword : S < 2 ^ 32 := hS.trans (by decide)
  cases h with
  | corrected hpos hlt =>
    simp [resultRow, toNat_toWord hword, toWord_ne_zero hpos hword, hlt, toField]
  | uncorrectable hpos =>
    have hne := toWord_ne_zero hpos hword
    simpa [resultRow, toWord, toField] using hne
  | valid heq => simp [resultRow, heq, toWord]
  | _ => simp [resultRow, resultCleared, toWord, toField]

/-- Both bytes of a checksum are remainders modulo 255 (R31). -/
theorem sums_of_csum_eq {s : State} {t : List Bit} (h : s.csum = toField (fcs t)) :
    s.sum1.toNat = (fsum t).1 ∧ s.sum2.toNat = (fsum t).2 := by
  have hlt := fcs_lt t
  simp only [State.sum1, State.sum2, BitVec.extractLsb'_toNat, Nat.shiftRight_eq_div_pow, h,
    toNat_toField hlt, ← fcs_mod, ← fcs_div]
  omega

theorem CodecRow.resultBounds_result {s u : State} {tag : Tag} {p S pos c rc : Nat} {out : List Bit}
    (h : CodecRow s tag p S pos c rc out) (hfb : s.fb.length ≤ u.cfg.nmax) (hp : p ≤ 31) :
    resultBounds (result tag p S pos c rc out u) := by
  obtain ⟨hpbc, hS, t, rfl⟩ := h.numbers
  have hword : S < 2 ^ 32 := (lt_two_pow_31 hp hS).trans (by decide)
  obtain ⟨h1, h2⟩ := sums_of_csum_eq (s := result tag p S pos (fcs t) rc out u) (t := t) rfl
  rw [resultBounds, h1, h2, result_p, result_synd, toNat_toWord hword, toNat_toWord (by omega)]
  exact ⟨hpbc.trans (pbc_mono hfb), hS, Nat.le_of_lt_succ (fsum_fst_lt t),
    Nat.le_of_lt_succ (fsum_snd_lt t)⟩

theorem resultBounds_of_zero {s : State} (hp : s.p = 0#32) (hS : s.synd = 0#32)
    (hc : s.csum = 0#16) : resultBounds s := by
  simp [resultBounds, State.sum1, State.sum2, hp, hS, hc]

/-! ### The invariant -/

theorem inv_resetWith {cfg : Config} (h : cfg.wf = true) : (State.resetWith cfg).Inv :=
  ⟨h, memory_wf_resetWith cfg, fun hf => absurd hf Bool.false_ne_true,
    resultBounds_of_zero rfl rfl rfl, rfl⟩

theorem inv_clearFrame {s : State} (h : s.Inv) : (clearFrame s).Inv := by
  obtain ⟨hc, hmem, -, hbounds, hrow⟩ := h
  exact ⟨hc, memory_wf_clearFrame s hmem, fun hf => absurd hf Bool.false_ne_true, hbounds, hrow⟩

/-- PUSH sets FOVF only where FB is full, and then drops the bit (R81, R82). -/
theorem inv_appendBit (b : Bit) {s : State} (h : s.Inv) : (appendBit b s).Inv := by
  obtain ⟨hc, hmem, hfull, hbounds, hrow⟩ := h
  have hmem' := memory_wf_appendBit b s hmem
  obtain ⟨hlt, heq⟩ | ⟨hle, heq⟩ := appendBit_cases b s
  · rw [heq] at hmem' ⊢
    exact ⟨hc, hmem', fun hf => absurd (hfull hf) hlt.ne, hbounds, hrow⟩
  · rw [heq] at hmem' ⊢
    exact ⟨hc, hmem', fun _ => le_antisymm ((memory_wf_iff s).1 hmem).1 hle, hbounds, hrow⟩

theorem CodecRow.inv_result {s : State} {tag : Tag} {p S pos c rc : Nat} {out : List Bit}
    (h : CodecRow s tag p S pos c rc out) (hs : s.Inv) (w : Word) :
    (result tag p S pos c rc out (setCmd w s)).Inv := by
  obtain ⟨hc, hmem, hfull, -, -⟩ := hs
  have hfb : s.fb.length ≤ s.cfg.nmax := ((memory_wf_iff s).1 hmem).1
  obtain ⟨hpbc, hS, -⟩ := h.numbers
  have hp : p ≤ 31 := hpbc.trans (pbc_le_31_of_wf hc hfb)
  exact ⟨hc, memory_wf_result _ _ _ _ _ _ _ _ hmem (h.length_out_le hc hfb), hfull,
    h.resultBounds_result hfb hp, h.resultRow_result (lt_two_pow_31 hp hS) _⟩

theorem inv_takeIllegalWord (w : Word) {s : State} (h : s.Inv) : (takeIllegalWord w s).Inv := by
  obtain ⟨hc, hmem, hfull, -, -⟩ := h
  exact ⟨hc, memory_wf_raiseTag _ _ hmem, hfull, resultBounds_of_zero rfl rfl rfl, rfl⟩

theorem EventEffect.inv {s t : State} {e : HostEvent} (h : EventEffect s e t) (hs : s.Inv) :
    t.Inv := by
  cases h with
  | reset =>
    obtain ⟨hc, -⟩ := hs
    exact inv_resetWith hc
  | read => exact hs
  | ignored => exact hs
  | clr => exact inv_clearFrame (s := setCmd _ s) hs
  | push b => exact inv_appendBit b (s := setCmd _ s) hs
  | codec _ hrow => exact hrow.inv_result hs _
  | illegal w => exact inv_takeIllegalWord w hs

/-- Settles O43: an idle step changes nothing, and the effect of every event keeps the invariant. -/
theorem stepKeepsInvariant : Obligations.StepKeepsInvariant := by
  unfold Obligations.StepKeepsInvariant
  intro s t hs hstep
  obtain ⟨-, rfl⟩ | ⟨e, rest, -, heff⟩ := step_next_cases hstep
  · exact hs
  · exact heff.inv hs

/-- Settles O42: the reset state is the one of the reference parameters, which R5 allows. -/
theorem resetMeetsInvariant : Obligations.ResetMeetsInvariant := by
  unfold Obligations.ResetMeetsInvariant
  exact ⟨inv_resetWith (by decide), fun _ => inv_resetWith⟩

end Sys2Proof.Machine
end

section
/-! The functions of the Hamming codec (R90 to R99): the laws of the parity count, the layout of a
codeword, the syndrome as one XOR, the corrector, stripping and padding.
-/
namespace Sys2Proof.Machine

/-! ### The parity count (R90, R91) -/

/-- The closed form of R90: the row of its table that L stands in. -/
theorem pbc_eq_iff {L p : Nat} (hp : 2 ≤ p) :
    pbc L = p ↔ 2 ^ (p - 1) + 1 ≤ L + p ∧ L + p + 1 ≤ 2 ^ p := by
  obtain ⟨q, rfl⟩ := Nat.exists_eq_add_of_le' (Nat.one_le_of_lt hp)
  rw [Nat.add_sub_cancel]
  constructor
  · intro h
    have hfail : 2 ^ q < L + q + 1 := two_pow_lt_of_lt_pbc (h ▸ Nat.lt_succ_self q)
    exact ⟨hfail, h ▸ le_two_pow_pbc L⟩
  · rintro ⟨hfail, hmet⟩
    exact pbc_eq_succ hfail hmet

theorem lt_two_pow_pbc_of_le {L i : Nat} (h : i ≤ L) : i < 2 ^ pbc L := by
  have hmet := le_two_pow_pbc L
  omega

/-- The number below pbc(L) does not do (R91). -/
theorem two_pow_pred_pbc_lt {L : Nat} (h : 1 ≤ L) : 2 ^ (pbc L - 1) < L + pbc L :=
  ((pbc_eq_iff (two_le_pbc h)).1 rfl).1

/-- Settles O18: by the closed form, and R90's inequality at the count and just below it. -/
theorem parityBitCountLaws : Obligations.ParityBitCountLaws := by
  unfold Obligations.ParityBitCountLaws
  exact ⟨fun _ _ => pbc_mono, fun _ _ => pbc_eq_iff, fun _ _ => lt_two_pow_pbc_of_le,
    fun _ => two_pow_pred_pbc_lt⟩

/-! ### The layout of a codeword (R92, R99) -/

theorem npar_eq_length_filter (n : Nat) :
    npar n = ((List.range n).filter fun k => pow2 (k + 1)).length := by
  induction n with
  | zero => rfl
  | succ n ih =>
    rw [npar_succ, ih, List.range_succ, List.filter_append, List.length_append, List.filter_singleton]
    cases pow2 (n + 1) <;> rfl

/-- A power of two up to the codeword's length has its exponent below the count (R99). -/
theorem lt_pbc_of_two_pow_le {m j : Nat} (h : 2 ^ j ≤ m + pbc m) : j < pbc m := by
  have hmet := le_two_pow_pbc m
  exact (Nat.pow_lt_pow_iff_right Nat.one_lt_two).1 (by omega)

/-- The parity positions of a codeword are `2^0` to `2^(r-1)` (R99). -/
theorem pow2_codeword_iff {m i : Nat} (hi : i ≤ m + pbc m) :
    pow2 i = true ↔ ∃ j < pbc m, i = 2 ^ j := by
  rw [pow2_iff]
  constructor
  · rintro ⟨j, rfl⟩
    exact ⟨j, lt_pbc_of_two_pow_le hi, rfl⟩
  · rintro ⟨j, -, rfl⟩
    exact ⟨j, rfl⟩

/-- The first-sent bit of a codeword is a data bit: its position is above `2^(r-1)` (R99). -/
theorem pow2_codeword_length {m : Nat} (h : 1 ≤ m) : pow2 (m + pbc m) = false := by
  rw [← Bool.not_eq_true, pow2_codeword_iff le_rfl]
  rintro ⟨j, hj, heq⟩
  have hle : 2 ^ j ≤ 2 ^ (pbc m - 1) := Nat.pow_le_pow_right Nat.two_pos (Nat.le_sub_one_of_lt hj)
  exact absurd (two_pow_pred_pbc_lt h) (Nat.not_lt.2 (heq ▸ hle))

/-- Settles O19: the count by one position more, the layout by R90's inequality. -/
theorem codewordLayout : Obligations.CodewordLayout := by
  unfold Obligations.CodewordLayout
  refine ⟨npar_eq_length_filter, pow2_iff, fun m hm => ?_⟩
  exact ⟨two_le_pbc hm, two_pow_pred_pbc_lt hm, Nat.le_sub_one_of_lt (le_two_pow_pbc m),
    fun i _ => pow2_codeword_iff, npar_codeword hm, ndata_codeword hm, pow2_codeword_length hm⟩

/-! ### The syndrome and the corrector (R93, R94, R96) -/

/-- The positions that hold a 1, ascending. -/
def onePositions (s : List Bit) : List Nat := ((List.range s.length).map (· + 1)).filter (bitAt s)

theorem onePositions_cons (b : Bit) (s : List Bit) :
    onePositions (b :: s) = onePositions s ++ if b then [s.length + 1] else [] := by
  have hlow : ((List.range s.length).map (· + 1)).filter (bitAt (b :: s)) = onePositions s := by
    refine List.filter_congr fun i hi => bitAt_cons_of_le b ?_
    obtain ⟨k, hk, rfl⟩ := List.mem_map.1 hi
    exact List.mem_range.1 hk
  rw [onePositions, List.length_cons, List.range_succ, List.map_append, List.filter_append, hlow,
    List.map_singleton, List.filter_singleton, bitAt_cons_self]
  cases b <;> rfl

/-- The short form of R93. -/
theorem synd_eq_foldl_xor (s : List Bit) : synd s = (onePositions s).foldl (· ^^^ ·) 0 := by
  induction s with
  | nil => rfl
  | cons b s ih =>
    rw [onePositions_cons, List.foldl_append, ← ih, synd, Nat.xor_comm]
    cases b
    · exact Nat.xor_zero _
    · rfl

/-- Settles O21: by the XOR of the positions, and the laws of the syndrome. -/
theorem syndromeRangeAndLinearity : Obligations.SyndromeRangeAndLinearity := by
  unfold Obligations.SyndromeRangeAndLinearity
  exact fun s => ⟨synd_eq_foldl_xor s, synd_lt s,
    Nat.pow_le_pow_right Nat.two_pos (npar_le_pbc s.length), synd_flipAt s⟩

/-- Settles O22: by the laws of the corrector. -/
theorem correctorFlipsOneBit : Obligations.CorrectorFlipsOneBit := by
  unfold Obligations.CorrectorFlipsOneBit
  exact fun s => ⟨fun i h1 h2 => ⟨length_flipAt s i, fun k => getD_flipAt s i k h1 h2⟩,
    synd_flipAt_synd s⟩

/-! ### Stripping (R97) -/

/-- Stripping deletes the elements whose position is a power of two and reorders nothing (R97). -/
theorem strip_eq_map_filter (s : List Bit) : strip .transmission s =
    ((List.range s.length).filter fun k => !pow2 (s.length - k)).map (fun k => s.getD k false) := by
  induction s with
  | nil => rfl
  | cons b s ih =>
    have htail : ((List.range s.length).map Nat.succ).filter
        (fun k => !pow2 ((b :: s).length - k)) =
        ((List.range s.length).filter fun k => !pow2 (s.length - k)).map Nat.succ := by
      rw [List.filter_map]
      refine congrArg (List.map Nat.succ) (List.filter_congr fun k _ => ?_)
      rw [Function.comp_apply, List.length_cons, Nat.succ_sub_succ]
    rw [strip_cons, ih, List.length_cons, List.range_succ_eq_map, List.filter_cons, ← List.length_cons,
      htail, Nat.sub_zero, List.length_cons]
    cases pow2 (s.length + 1) <;> simp [Function.comp_def]

/-! ### Padding and code points (R98) -/

theorem pad8_eq (d : List Bit) :
    pad8 d = d ++ List.replicate (8 * ((d.length + 7) / 8) - d.length) false := by
  rw [pad8, ceilChunks_eq]

theorem take_pad8 (d : List Bit) : (pad8 d).take d.length = d := by
  rw [pad8_eq, List.take_left]

theorem getD_pad8_of_le {d : List Bit} {k : Nat} (h : d.length ≤ k) :
    (pad8 d).getD k false = false := by
  rw [pad8_eq, List.getD_append_right _ _ _ _ h, List.getD_eq_getElem?_getD,
    List.getElem?_getD_replicate_default_eq]

theorem length_codePoints_pad8 (d : List Bit) :
    (codePoints (pad8 d)).length = (d.length + 7) / 8 := by
  rw [codePoints, List.length_map, List.length_range, length_pad8]
  exact Nat.mul_div_cancel_left _ (by decide)

/-- The number a bit string spells, as the sum of its bits' weights (R11). -/
theorem val_eq_sum (t : List Bit) : val t =
    ((List.range t.length).map fun j => if t.getD j false then 2 ^ (t.length - 1 - j) else 0).sum := by
  induction t with
  | nil => rfl
  | cons b t ih =>
    rw [val_cons, ih, List.length_cons, List.range_succ_eq_map, List.map_cons, List.map_map,
      List.sum_cons]
    congr 1
    · cases b <;> simp
    · refine congrArg List.sum (List.map_congr_left fun j _ => ?_)
      simp only [Function.comp_apply, List.getD_cons_succ]
      congr 2
      omega

theorem length_chunk {t : List Bit} {k : Nat} (h : 8 * k + 8 ≤ t.length) :
    (chunk t k).length = 8 := by
  rw [chunk, List.length_take, List.length_drop, chunkSize]
  omega

theorem getD_chunk (t : List Bit) (k : Nat) {j : Nat} (h : j < 8) :
    (chunk t k).getD j false = t.getD (8 * k + j) false := by
  simp [chunk, List.getD_eq_getElem?_getD, h]

/-- The code point of a whole chunk, lowest index most significant (R98). -/
theorem val_chunk {t : List Bit} {k : Nat} (h : 8 * k + 8 ≤ t.length) : val (chunk t k) =
    ((List.range 8).map fun j => if t.getD (8 * k + j) false then 2 ^ (7 - j) else 0).sum := by
  rw [val_eq_sum, length_chunk h]
  refine congrArg List.sum (List.map_congr_left fun j hj => ?_)
  rw [getD_chunk t k (List.mem_range.1 hj)]

theorem getD_codePoints {t : List Bit} {k : Nat} (h : k < t.length / 8) :
    (codePoints t).getD k 0 = val (chunk t k) := by
  have hk : k < (codePoints t).length := by rwa [codePoints, List.length_map, List.length_range]
  rw [List.getD_eq_getElem _ _ hk]
  simp [codePoints]

/-- Settles O23: stripping as a filter of the indexes, padding by its definition, and each code point as
the number its chunk spells. -/
theorem stripAndPad : Obligations.StripAndPad := by
  unfold Obligations.StripAndPad
  refine ⟨fun s => ⟨strip_eq_map_filter s, strip_reversed s, length_strip _ s⟩, fun d => ?_⟩
  refine ⟨length_pad8 d, take_pad8 d, fun k => getD_pad8_of_le, length_codePoints_pad8 d,
    fun k hk => ?_⟩
  have hlen := length_pad8 d
  rw [getD_codePoints (by omega), val_chunk (by omega)]

end Sys2Proof.Machine
end

section
/-! The Hamming decoder on damaged codewords (R96, R105 to R108): what HENC wrote decodes to the data,
and the XOR of the flipped positions decides how a frame is classified.
-/
namespace Sys2Proof.Machine

/-! ### The decoder of both commands (R103, R104) -/

/-- On an accepted frame HDEC and HDECX are the decoder; they differ in the error-free output. -/
theorem exec_decoder {i : Instr} {s : State} (hi : i = .hdec ∨ i = .hdecx)
    (hs : frameRejected s = false) :
    ∃ clean u, u.fb = s.fb ∧ exec i s = .next (hammingDecode clean u) := by
  obtain rfl | rfl := hi
  · exact ⟨_, setCmd 0x00000012#32 s, rfl, exec_hdec_of_accepted hs⟩
  · exact ⟨_, setCmd 0x00000013#32 s, rfl, exec_hdecx_of_accepted hs⟩

/-- The registers of a decode: with P in range, no number is truncated (R21). -/
theorem hammingDecode_registers (clean : List Bit) {s : State} (hfb : s.fb ≠ [])
    (hp : pbc s.fb.length ≤ 31) :
    (hammingDecode clean s).p.toNat = pbc s.fb.length ∧
    (hammingDecode clean s).synd.toNat = synd s.fb ∧
    (hammingDecode clean s).pos.toNat =
      (if (hammingDecode clean s).tag = .corrected then synd s.fb else 0) ∧
    (hammingDecode clean s).pos.toNat < s.fb.length := by
  have hlen : 0 < s.fb.length := List.length_pos_iff.2 hfb
  have hP : (toWord (pbc s.fb.length)).toNat = pbc s.fb.length := toNat_toWord (by omega)
  have hS : (toWord (synd s.fb)).toNat = synd s.fb :=
    toNat_toWord ((lt_two_pow_31 hp (synd_lt_two_pow_pbc s.fb)).trans (by decide))
  obtain ⟨h0, heq⟩ | ⟨-, hlt, heq⟩ | ⟨-, -, heq⟩ := hammingDecode_cases clean s <;> rw [heq]
  · exact ⟨hP, h0.symm, rfl, hlen⟩
  · exact ⟨hP, hS, hS, hS.trans_lt hlt⟩
  · exact ⟨hP, hS, rfl, hlen⟩

/-! ### Flips of a codeword (R94, R106, R107) -/

@[simp] theorem length_foldl_flipAt (ks : List Nat) (c : List Bit) :
    (ks.foldl flipAt c).length = c.length := by
  induction ks generalizing c with
  | nil => rfl
  | cons k ks ih => rw [List.foldl_cons, ih, length_flipAt]

/-- Flips add the XOR of their positions to the syndrome (R94). -/
theorem synd_foldl_flipAt (ks : List Nat) (c : List Bit) (h : ∀ k ∈ ks, 1 ≤ k ∧ k ≤ c.length) :
    synd (ks.foldl flipAt c) = ks.foldl (· ^^^ ·) (synd c) := by
  induction ks generalizing c with
  | nil => rfl
  | cons k ks ih =>
    obtain ⟨⟨h1, h2⟩, htail⟩ := List.forall_mem_cons.1 h
    rw [List.foldl_cons, List.foldl_cons, ← synd_flipAt c k h1 h2]
    exact ih _ (by simpa using htail)

theorem ne_nil_of_length_eq {s c : List Bit} (hlen : s.length = c.length) (hc : c ≠ []) :
    s ≠ [] := by
  rwa [← List.length_pos_iff, hlen, List.length_pos_iff]

/-- Settles O29: the syndrome of the frame is the flipped position, and flipping it again restores the
string. -/
theorem singleErrorIsLocated : Obligations.SingleErrorIsLocated := by
  unfold Obligations.SingleErrorIsLocated
  intro s c k i hi hwf hfit hfovf hc h1 h2 hfb
  have hlen : s.fb.length = c.length := by rw [hfb, length_flipAt]
  have hne : s.fb ≠ [] := List.ne_nil_of_length_pos (by omega)
  obtain ⟨clean, u, hu, hexec⟩ := exec_decoder hi (frameRejected_eq_false hfovf hne)
  have hsynd : synd u.fb = k := by rw [hu, hfb, synd_flipAt c k h1 h2, hc, Nat.zero_xor]
  rw [← hu] at hlen hne hfb
  obtain ⟨-, hS, hpos, -⟩ :=
    hammingDecode_registers clean hne (pbc_le_31_of_wf hwf (hlen.trans_le hfit))
  rw [hsynd] at hS hpos
  refine ⟨_, hexec, fun hlt => ?_, fun heq => ?_⟩
  · have hcorr := hammingDecode_of_synd_lt clean (s := u) (by omega) (by omega)
    have htag := congrArg State.tag hcorr
    have hob : (hammingDecode clean u).ob = c := by
      rw [hcorr, result_ob, hsynd, hfb, flipAt_flipAt]
    exact ⟨htag, hS, hpos.trans (if_pos htag), hob⟩
  · have huncorr := hammingDecode_of_length_le clean hne (by omega)
    exact ⟨congrArg State.tag huncorr, hS, congrArg State.pos huncorr, congrArg State.ob huncorr⟩

/-- Settles O30: the syndrome of the frame is the XOR of the flipped positions, and the decoder's three
arms test it alone; two different positions have no XOR 0. -/
theorem manyErrorsAreClassified : Obligations.ManyErrorsAreClassified := by
  unfold Obligations.ManyErrorsAreClassified
  intro s c ks i hi hwf hfit hfovf hcne hc hks hfb
  have hlen : s.fb.length = c.length := by rw [hfb, length_foldl_flipAt]
  have hne : s.fb ≠ [] := ne_nil_of_length_eq hlen hcne
  obtain ⟨clean, u, hu, hexec⟩ := exec_decoder hi (frameRejected_eq_false hfovf hne)
  have hsynd : synd u.fb = ks.foldl (· ^^^ ·) 0 := by rw [hu, hfb, synd_foldl_flipAt ks c hks, hc]
  rw [← hu] at hlen hne
  obtain ⟨-, hS, -⟩ :=
    hammingDecode_registers clean hne (pbc_le_31_of_wf hwf (hlen.trans_le hfit))
  refine ⟨_, hexec, hS.trans hsynd, ?_⟩
  rw [hS, ← hlen, ← hu]
  refine ⟨fun h0 => ?_, fun hpos hlt => ?_, fun hle => ?_, ?_⟩
  · exact congrArg State.tag (hammingDecode_of_synd_eq_zero clean h0)
  · rw [hammingDecode_of_synd_lt clean hpos hlt]
    exact ⟨rfl, rfl, rfl⟩
  · rw [hammingDecode_of_length_le clean hne hle]
    exact ⟨rfl, rfl, rfl⟩
  · rintro a b rfl hab
    have hxor : synd u.fb ≠ 0 := by
      rw [hsynd]
      simpa [Nat.xor_eq_zero_iff] using hab
    rw [hammingDecode_tag, hammingTag, if_neg hxor]
    split <;> decide

/-! ### Frames with syndrome 0 (R96, R105) -/

theorem exec_hdec_of_synd_eq_zero {s : State} (hs : frameRejected s = false) (h : synd s.fb = 0) :
    exec .hdec s = .next (result .noError (pbc s.fb.length) 0 0 0 0 s.fb (setCmd 0x00000012#32 s)) :=
  (exec_hdec_of_accepted hs).trans
    (congrArg _ (hammingDecode_of_synd_eq_zero s.fb (s := setCmd _ s) h))

theorem exec_hdecx_of_synd_eq_zero {s : State} (hs : frameRejected s = false) (h : synd s.fb = 0) :
    exec .hdecx s = .next (result .noError (pbc s.fb.length) 0 0 0 0
      (pad8 (strip s.cfg.extractOrder s.fb)) (setCmd 0x00000013#32 s)) :=
  (exec_hdecx_of_accepted hs).trans
    (congrArg _ (hammingDecode_of_synd_eq_zero _ (s := setCmd _ s) h))

/-- Settles O28: the codeword has syndrome 0 and strips to the data. -/
theorem decodeUndoesEncode : Obligations.DecodeUndoesEncode := by
  unfold Obligations.DecodeUndoesEncode
  intro s u hfovf hfb hfit hcfg hufovf
  refine ⟨_, exec_henc_of_le (frameRejected_eq_false hfovf hfb) hfit, rfl, fun hufb => ?_⟩
  rw [result_ob] at hufb ⊢
  have hlen : 0 < s.fb.length := List.length_pos_iff.2 hfb
  have hune : u.fb ≠ [] :=
    List.ne_nil_of_length_pos (by rw [hufb, length_hammingEncode]; omega)
  have hsynd : synd u.fb = 0 := by rw [hufb, synd_hammingEncode]
  have hs := frameRejected_eq_false hufovf hune
  refine ⟨⟨_, exec_hdec_of_synd_eq_zero hs hsynd, rfl, hufb⟩,
    ⟨_, exec_hdecx_of_synd_eq_zero hs hsynd, rfl, ?_⟩⟩
  rw [result_ob, hufb, hcfg, strip_hammingEncode _ _ hfb, pad8_eq]

/-- Settles O31: the corrected frame has syndrome 0. -/
theorem correctedFrameDecodesClean : Obligations.CorrectedFrameDecodesClean := by
  unfold Obligations.CorrectedFrameDecodesClean
  intro s u hfovf hpos hlt hufovf
  have hne : s.fb ≠ [] := List.ne_nil_of_length_pos (hpos.trans hlt)
  have hcorr := hammingDecode_of_synd_lt s.fb (s := setCmd 0x00000012#32 s) hpos hlt
  refine ⟨_, exec_hdec_of_accepted (frameRejected_eq_false hfovf hne), congrArg State.tag hcorr,
    fun hufb => ?_⟩
  rw [hcorr, result_ob, setCmd_fb] at hufb
  have hune : u.fb ≠ [] := ne_nil_of_length_eq (by rw [hufb, length_flipAt]) hne
  have hsynd : synd u.fb = 0 := by rw [hufb, synd_flipAt_synd s.fb hpos hlt]
  refine ⟨_, exec_hdec_of_synd_eq_zero (frameRejected_eq_false hufovf hune) hsynd, rfl, ?_⟩
  rw [hcorr, result_ob, result_ob, setCmd_fb, hufb]

end Sys2Proof.Machine
end

section
/-! The Fletcher codec's closed form and what it detects (R130, R131, R137, R138).
-/
namespace Sys2Proof.Machine

/-! ### The checksum (R130, R131) -/

/-- The field FGEN appends spells the checksum (R133). -/
theorem val_bitsOf_fcs (t : List Bit) : val (bitsOf 16 (fcs t)) = fcs t := by
  rw [val_bitsOf, Nat.mod_eq_of_lt (fcs_lt t)]

/-- Settles O33: by the closed form of the sums and the two bytes of the checksum. -/
theorem fletcherChecksumForm : Obligations.FletcherChecksumForm := by
  unfold Obligations.FletcherChecksumForm
  intro t
  have h1 := fsum_fst_lt t
  have h2 := fsum_snd_lt t
  exact ⟨congrArg Prod.fst (fsum_eq t), congrArg Prod.snd (fsum_eq t), fcs_lt t, fcs_mod t, fcs_div t,
    fcs_mod t ▸ h1.ne, fcs_div t ▸ h2.ne, bitsOf_fcs t, val_bitsOf_fcs t⟩

/-- The checksum depends on the two sums alone. -/
theorem fcs_congr {t t' : List Bit} (h : fsum t' = fsum t) : fcs t' = fcs t := by
  rw [fcs_eq, fcs_eq, h]

/-! ### Checksums that are 0 (R138) -/

theorem fcs_eq_zero {t : List Bit} (h : fsum t = (0, 0)) : fcs t = 0 := by
  simp [fcs_eq, h]

theorem fsum_zeros (n : Nat) : fsum (List.replicate n false) = (0, 0) := by
  induction n with
  | zero => rfl
  | succ n ih => rw [List.replicate_succ', fsum_concat, ih]; rfl

/-- n ones have the sums n and 1 + 2 + ... + n. -/
theorem fsum_ones (n : Nat) :
    fsum (List.replicate n true) = (n % 255, (n + 1).choose 2 % 255) := by
  induction n with
  | zero => rfl
  | succ n ih =>
    have hchoose : (n + 1 + 1).choose 2 = (n + 1).choose 2 + (n + 1) := by
      rw [Nat.choose_succ_succ, Nat.choose_one_right, Nat.add_comm]
    rw [List.replicate_succ', fsum_concat, ih, fsumStep, hchoose]
    simp [Nat.add_mod]

theorem fcs_zeros (n : Nat) : fcs (List.replicate n false) = 0 := fcs_eq_zero (fsum_zeros n)

theorem fcs_ones_255 : fcs (List.replicate 255 true) = 0 :=
  fcs_eq_zero ((fsum_ones 255).trans (by simp [Nat.choose_two_right]))

theorem val_zeros (n : Nat) : val (List.replicate n false) = 0 := by
  induction n with
  | zero => rfl
  | succ n ih => rw [List.replicate_succ, val_cons, ih]; simp

/-! ### FVER on a damaged frame (R134, R137, R138) -/

theorem exec_fver_valid {s : State} {t f : List Bit} (hfovf : s.fovf = false) (hfb : s.fb = t ++ f)
    (hf : f.length = 16) (h : fcs t = val f) :
    exec .fver s = .next (result .valid 0 0 0 (fcs t) (val f) t (setCmd 0x00000021#32 s)) :=
  (exec_fver_of_eq_append hfovf hfb hf).trans (congrArg _ (if_pos h))

theorem exec_fver_mismatch {s : State} {t f : List Bit} (hfovf : s.fovf = false)
    (hfb : s.fb = t ++ f) (hf : f.length = 16) (h : fcs t ≠ val f) :
    exec .fver s =
      .next (result .checksumMismatch 0 0 0 (fcs t) (val f) [] (setCmd 0x00000021#32 s)) :=
  (exec_fver_of_eq_append hfovf hfb hf).trans (congrArg _ (if_neg h))

/-- Settles O36: the field FGEN appends spells the checksum FVER computes. -/
theorem fletcherRoundTrip : Obligations.FletcherRoundTrip := by
  unfold Obligations.FletcherRoundTrip
  intro s u hfovf hfb hfit hufovf
  refine ⟨_, exec_fgen_of_le (frameRejected_eq_false hfovf hfb) hfit, rfl, fun hufb => ?_⟩
  have hval := val_bitsOf_fcs s.fb
  refine ⟨_, exec_fver_valid hufovf hufb (length_bitsOf _ _) hval.symm, rfl, rfl, rfl, ?_⟩
  exact congrArg toField hval

/-- A field that is not the payload's checksum does not spell it. -/
theorem fcs_ne_val {t f : List Bit} (hf : f.length = 16) (h : f ≠ bitsOf 16 (fcs t)) :
    fcs t ≠ val f := fun heq =>
  h (val_inj (hf.trans (length_bitsOf _ _).symm) ((val_bitsOf_fcs t).trans heq).symm)

/-- Settles O37: the comparator decides, the field and the checksum it should hold being one number or
two; the checksums by their sums. -/
theorem fletcherDetection : Obligations.FletcherDetection := by
  unfold Obligations.FletcherDetection
  refine ⟨fun s t f hfovf hf hne hfb => ?_, fun s t k hk hfovf hfb => ?_,
    fun s t t' hfovf heq hfb => ?_, fun t t' h1 h2 => ?_, fcs_ones_255, fcs_zeros,
    fun s t hfovf ht hfb => ?_⟩
  · exact ⟨_, exec_fver_mismatch hfovf hfb hf (fcs_ne_val hf hne), rfl, rfl⟩
  · have hne : fcs (t.set k (!t[k])) ≠ val (bitsOf 16 (fcs t)) := by
      rw [val_bitsOf_fcs]
      exact fcs_set_ne t k hk
    exact ⟨_, exec_fver_mismatch hfovf hfb (length_bitsOf _ _) hne, rfl, rfl⟩
  · exact ⟨_, exec_fver_valid hfovf hfb (length_bitsOf _ _) (heq.trans (val_bitsOf_fcs t).symm), rfl,
      rfl⟩
  · refine fcs_congr ?_
    rw [fsum_eq, fsum_eq, h1, h2]
  · have hzero : fcs t = 0 := by
      obtain rfl | ⟨n, rfl⟩ := ht
      · exact fcs_ones_255
      · exact fcs_zeros n
    exact ⟨_, exec_fver_valid hfovf hfb List.length_replicate (hzero.trans (val_zeros 16).symm), rfl,
      rfl⟩

end Sys2Proof.Machine
end

section
/-! Runs of CLR and PUSH words (R82), as the assembler's LOAD and APPEND give them (R70).
-/
namespace Sys2Proof.Machine

/-! ### Runs of PUSH (R81, R82) -/

/-- PUSH's word (R62, R64). -/
def pushWord (b : Bit) : Word := if b then 0x00000102#32 else 0x00000002#32

theorem pushWord_eq_encode (b : Bit) : pushWord b = encode (.push b) := by
  cases b <;> rfl

/-- What a run of PUSH words leaves of the state s, these events still to come: R82 in one record. -/
def pushed (bits : List Bit) (rest : List HostEvent) (s : State) : State :=
  { s with
    pending := rest
    cmd := (bits.getLast?.map pushWord).getD s.cmd
    fb := (s.fb ++ bits).take s.cfg.nmax
    fovf := s.fovf || decide (s.cfg.nmax < s.fb.length + bits.length) }

theorem pushed_nil (s : State) (h : s.fb.length ≤ s.cfg.nmax) : pushed [] s.pending s = s := by
  simp [pushed, List.take_of_length_le h, Nat.not_lt.2 h]

/-- Bits dropped early are not taken later either. -/
theorem take_take_append (n : Nat) (l m : List Bit) : (l.take n ++ m).take n = (l ++ m).take n := by
  rw [List.take_append, List.take_append, List.take_take, Nat.min_self, List.length_take]
  congr 2
  omega

theorem pushed_pushed (b : Bit) (bits : List Bit) (mid rest : List HostEvent) (s : State)
    (h : s.fb.length ≤ s.cfg.nmax) :
    pushed bits rest (pushed [b] mid s) = pushed (b :: bits) rest s := by
  have hcmd : (bits.getLast?.map pushWord).getD (pushWord b) =
      (((b :: bits).getLast?.map pushWord).getD s.cmd) := by
    rw [List.getLast?_cons]
    cases bits.getLast? <;> rfl
  have hfb : ((s.fb ++ [b]).take s.cfg.nmax ++ bits).take s.cfg.nmax =
      (s.fb ++ b :: bits).take s.cfg.nmax := by
    rw [take_take_append, List.append_assoc, List.singleton_append]
  have hfovf : ((s.fovf || decide (s.cfg.nmax < s.fb.length + 1)) ||
      decide (s.cfg.nmax < ((s.fb ++ [b]).take s.cfg.nmax).length + bits.length)) =
      (s.fovf || decide (s.cfg.nmax < s.fb.length + (b :: bits).length)) := by
    rw [Bool.or_assoc, ← Bool.decide_or, List.length_take, List.length_append, List.length_singleton,
      List.length_cons]
    congr 2
    rw [eq_iff_iff]
    omega
  simp only [pushed, State.mk.injEq, true_and, and_true]
  exact ⟨hcmd, hfovf, hfb⟩

/-- One PUSH is a run of one bit, whether or not a cell is free. -/
theorem exec_push_eq_pushed (b : Bit) (s : State) (h : s.fb.length ≤ s.cfg.nmax) :
    exec (.push b) s = .next (pushed [b] s.pending s) := by
  rcases Nat.lt_or_ge s.fb.length s.cfg.nmax with hlt | hle
  · have hfit : (s.fb ++ [b]).take s.cfg.nmax = s.fb ++ [b] :=
      List.take_of_length_le (by simpa using hlt)
    have hkeep : ¬ s.cfg.nmax < s.fb.length + 1 := by omega
    rw [exec_push_of_lt b hlt]
    simp [pushed, pushWord, hfit, hkeep]
  · have hdrop : (s.fb ++ [b]).take s.cfg.nmax = s.fb := List.take_left' (le_antisymm h hle)
    have hset : s.cfg.nmax < s.fb.length + 1 := by omega
    rw [exec_push_of_le b hle]
    simp [pushed, pushWord, hdrop, hset]

theorem run_pushWords (bits : List Bit) (s : State) (rest : List HostEvent)
    (hpend : s.pending = (bits.map fun b => HostEvent.write 0 (pushWord b)) ++ rest)
    (h : s.fb.length ≤ s.cfg.nmax) : run bits.length s = .next (pushed bits rest s) := by
  induction bits generalizing s with
  | nil =>
    obtain rfl : s.pending = rest := hpend
    rw [pushed_nil s h]
    rfl
  | cons b bits ih =>
    have hstep : step s = .next
        (pushed [b] ((bits.map fun b => HostEvent.write 0 (pushWord b)) ++ rest) s) := by
      rw [step_write_cmd hpend, pushWord_eq_encode, writeCmd_encode]
      exact exec_push_eq_pushed b { s with pending := _ } h
    rw [List.length_cons, run_succ hstep, ih _ rfl (List.length_take_le _ _), pushed_pushed b _ _ _ s h]

/-- Settles O16: CLR leaves an empty frame, and a run of PUSH words appends its bits up to NMAX. -/
theorem loadDeliversFrame : Obligations.LoadDeliversFrame := by
  unfold Obligations.LoadDeliversFrame
  refine fun bits s rest => ⟨fun hpend => ?_, run_pushWords bits s rest⟩
  have hstep : step s = exec .clr { s with pending := _ } :=
    (step_write_cmd hpend).trans (writeCmd_encode .clr _)
  rw [run_succ (hstep.trans (exec_clr _)), run_pushWords bits _ rest rfl (Nat.zero_le _)]
  simp [pushed]
  rfl

/-! ### The assembler (R70) -/

theorem appendWords_eq (bits : List Bit) :
    appendWords bits = bits.map fun b => if b then 0x00000102#32 else 0x00000002#32 :=
  List.map_congr_left fun b _ => (pushWord_eq_encode b).symm

/-- A program of one line is the line's words. -/
theorem assemble_singleton (line : AsmLine) : assemble [line] = line.words := List.flatMap_singleton _ _

theorem assemble_append (p q : List AsmLine) : assemble (p ++ q) = assemble p ++ assemble q :=
  List.flatMap_append

/-- Settles O48: a program is the words of its lines, and LOAD and APPEND are words of CLR and PUSH. -/
theorem assemblerExpansions : Obligations.AssemblerExpansions := by
  unfold Obligations.AssemblerExpansions
  refine ⟨fun bits => ⟨?_, ?_⟩, fun w => rfl, fun i => rfl, assemble_append, by decide⟩
  · rw [assemble_singleton, AsmLine.words, loadWords, appendWords_eq]
    rfl
  · rw [assemble_singleton, AsmLine.words, appendWords_eq]

end Sys2Proof.Machine
end

section
/-! What the results of a command depend on (R36): the command, the frame and FOVF.
-/
namespace Sys2Proof.Machine

/-- The decoder's row depends on the frame and on the error-free output alone. -/
theorem hammingDecode_eq_result (clean : List Bit) {fb : List Bit} (hne : fb ≠ []) :
    ∃ tag S pos out, ∀ s : State, s.fb = fb →
      hammingDecode clean s = result tag (pbc fb.length) S pos 0 0 out s := by
  rcases Nat.eq_zero_or_pos (synd fb) with h0 | hpos
  · refine ⟨.noError, 0, 0, clean, ?_⟩
    rintro s rfl
    exact hammingDecode_of_synd_eq_zero clean h0
  rcases Nat.lt_or_ge (synd fb) fb.length with hlt | hle
  · refine ⟨.corrected, synd fb, synd fb, flipAt fb (synd fb), ?_⟩
    rintro s rfl
    exact hammingDecode_of_synd_lt clean hpos hlt
  · refine ⟨.uncorrectable, synd fb, 0, [], ?_⟩
    rintro s rfl
    exact hammingDecode_of_length_le clean hne hle

/-- FVER's row on an accepted frame (R136). -/
theorem exec_fver_eq_result {fb : List Bit} (hne : fb ≠ []) :
    ∃ tag c rc out, ∀ s : State, s.fb = fb → s.fovf = false →
      exec .fver s = .next (result tag 0 0 0 c rc out (setCmd 0x00000021#32 s)) := by
  by_cases hshort : fb.length < 16
  · refine ⟨.checksumMismatch, 0, 0, [], ?_⟩
    rintro s rfl hfovf
    exact exec_fver_of_length_lt (frameRejected_eq_false hfovf hne) hshort
  have hcut := (payload_append_received fb).symm
  have hlen := length_received (Nat.le_of_not_lt hshort)
  by_cases h : fcs (payload fb) = val (received fb)
  · refine ⟨.valid, fcs (payload fb), val (received fb), payload fb, ?_⟩
    rintro s rfl hfovf
    exact exec_fver_valid hfovf hcut hlen h
  · refine ⟨.checksumMismatch, fcs (payload fb), val (received fb), [], ?_⟩
    rintro s rfl hfovf
    exact exec_fver_mismatch hfovf hcut hlen h

/-- A codec command that passes the tests of R153 and R154 answers one row to all states that agree in
parameters and frame. -/
theorem exec_accepted_row {i : Instr} {cfg : Config} {fb : List Bit} (hi : i.isCodec = true)
    (hne : fb ≠ [] ∨ i = .pcnt) (hfit : ¬ ((i = .henc ∧ fb.length + pbc fb.length > cfg.nmax) ∨
      (i = .fgen ∧ fb.length + 16 > cfg.nmax))) :
    ∃ tag p S pos c rc out, ∀ s : State, s.cfg = cfg → s.fb = fb → s.fovf = false →
      exec i s = .next (result tag p S pos c rc out (setCmd (encode i) s)) := by
  cases i with
  | clr => cases hi
  | push b => cases hi
  | pcnt =>
    refine ⟨.done, pbc fb.length, 0, 0, 0, 0, [], ?_⟩
    rintro s rfl rfl hfovf
    exact exec_pcnt_of_fovf_false hfovf
  | henc =>
    refine ⟨.done, pbc fb.length, 0, 0, 0, 0, hammingEncode cfg.extractOrder fb, ?_⟩
    rintro s rfl rfl hfovf
    exact exec_henc_of_le (frameRejected_eq_false hfovf (by simpa using hne)) (by simpa using hfit)
  | hdec =>
    have hne' : fb ≠ [] := by simpa using hne
    obtain ⟨tag, S, pos, out, hrow⟩ := hammingDecode_eq_result fb hne'
    refine ⟨tag, pbc fb.length, S, pos, 0, 0, out, ?_⟩
    rintro s rfl rfl hfovf
    rw [exec_hdec_of_accepted (frameRejected_eq_false hfovf hne')]
    exact congrArg _ (hrow (setCmd _ s) rfl)
  | hdecx =>
    have hne' : fb ≠ [] := by simpa using hne
    obtain ⟨tag, S, pos, out, hrow⟩ :=
      hammingDecode_eq_result (pad8 (strip cfg.extractOrder fb)) hne'
    refine ⟨tag, pbc fb.length, S, pos, 0, 0, out, ?_⟩
    rintro s rfl rfl hfovf
    rw [exec_hdecx_of_accepted (frameRejected_eq_false hfovf hne')]
    exact congrArg _ (hrow (setCmd _ s) rfl)
  | fgen =>
    refine ⟨.done, 0, 0, 0, fcs fb, 0, fletcherGen fb, ?_⟩
    rintro s rfl rfl hfovf
    exact exec_fgen_of_le (frameRejected_eq_false hfovf (by simpa using hne)) (by simpa using hfit)
  | fver =>
    obtain ⟨tag, c, rc, out, hrow⟩ := exec_fver_eq_result (fb := fb) (by simpa using hne)
    exact ⟨tag, 0, 0, 0, c, rc, out, fun s _ => hrow s⟩

/-- A codec command answers one row of results to all states that agree in parameters, frame and FOVF. -/
theorem exec_codec_row {i : Instr} (hi : i.isCodec = true) (cfg : Config) (fb : List Bit)
    (fovf : Bool) : ∃ tag p S pos c rc out, ∀ s : State, s.cfg = cfg → s.fb = fb → s.fovf = fovf →
      exec i s = .next (result tag p S pos c rc out (setCmd (encode i) s)) := by
  by_cases hinvalid : fovf = true ∨ (fb = [] ∧ i ≠ .pcnt)
  · refine ⟨.invalidInput, 0, 0, 0, 0, 0, [], ?_⟩
    rintro s rfl rfl rfl
    exact exec_codec_of_invalidFrame hi hinvalid
  by_cases hlong : (i = .henc ∧ fb.length + pbc fb.length > cfg.nmax) ∨
      (i = .fgen ∧ fb.length + 16 > cfg.nmax)
  · refine ⟨.outputOverflow, 0, 0, 0, 0, 0, [], ?_⟩
    rintro s rfl rfl rfl
    exact exec_of_outputOverflows hinvalid hlong
  obtain ⟨hfovf, hne⟩ : fovf = false ∧ (fb ≠ [] ∨ i = .pcnt) := by
    simpa [imp_iff_not_or] using hinvalid
  subst hfovf
  exact exec_accepted_row hi hne hlong

/-- PUSH takes the frame state from the frame state and the command alone. -/
theorem appendBit_frame_congr (b : Bit) {s s' : State} (hcfg : s.cfg = s'.cfg) (hfb : s.fb = s'.fb)
    (hfovf : s.fovf = s'.fovf) :
    (appendBit b s).fb = (appendBit b s').fb ∧ (appendBit b s).fovf = (appendBit b s').fovf := by
  rcases Nat.lt_or_ge s.fb.length s.cfg.nmax with hlt | hle
  · rw [appendBit_of_lt b hlt, appendBit_of_lt b (hfb ▸ hcfg ▸ hlt)]
    exact ⟨congrArg (· ++ [b]) hfb, hfovf⟩
  · rw [appendBit_of_le b hle, appendBit_of_le b (hfb ▸ hcfg ▸ hle)]
    exact ⟨hfb, rfl⟩

/-- Settles O44: a codec command writes one row of results to both states, and a frame command changes
both frame states alike. -/
theorem resultsDependOnFrameOnly : Obligations.ResultsDependOnFrameOnly := by
  unfold Obligations.ResultsDependOnFrameOnly
  intro i s s' hcfg hfb hfovf
  cases hi : i.isCodec with
  | true =>
    obtain ⟨tag, p, S, pos, c, rc, out, hrow⟩ := exec_codec_row hi s'.cfg s'.fb s'.fovf
    exact ⟨_, _, hrow s hcfg hfb hfovf, hrow s' rfl rfl rfl, rfl,
      fun _ => ⟨rfl, rfl, rfl, rfl, rfl, rfl, rfl⟩, hfb, hfovf⟩
  | false =>
    cases i with
    | clr => exact ⟨_, _, exec_clr s, exec_clr s', rfl, fun h => absurd h Bool.false_ne_true, rfl, rfl⟩
    | push b =>
      refine ⟨_, _, exec_push b s, exec_push b s', ?_, fun h => absurd h Bool.false_ne_true, ?_⟩
      · rw [appendBit_cmd, appendBit_cmd, setCmd_cmd, setCmd_cmd]
      · exact appendBit_frame_congr b (s := setCmd _ s) (s' := setCmd _ s') hcfg hfb hfovf
    | _ => cases hi

end Sys2Proof.Machine
end

section
/-! The numbers in the registers (R21): under the invariant each reads back as the number computed.
-/
namespace Sys2Proof.Machine

/-- No buffer of a legal state is too long for its length register. -/
theorem toNat_toWord_length {c : Config} {t : List Bit} (hc : c.wf = true)
    (h : t.length ≤ c.nmax) : (toWord t.length).toNat = t.length := by
  obtain ⟨-, hmax, -⟩ := (config_wf_iff c).1 hc
  exact toNat_toWord (by omega)

theorem State.Inv.toNat_lengths {s : State} (h : s.Inv) :
    (readReg s 2).toNat = s.fb.length ∧ (readReg s 3).toNat = s.ob.length := by
  obtain ⟨hc, hmem, -⟩ := h
  obtain ⟨hfb, hob⟩ := (memory_wf_iff s).1 hmem
  exact ⟨toNat_toWord_length hc hfb, toNat_toWord_length hc hob⟩

theorem State.Inv.pbc_le_31 {s : State} (h : s.Inv) : pbc s.fb.length ≤ 31 := by
  obtain ⟨hc, hmem, -⟩ := h
  exact pbc_le_31_of_wf hc ((memory_wf_iff s).1 hmem).1

theorem State.Inv.toNat_p_synd {s : State} (h : s.Inv) : s.p.toNat ≤ 31 ∧ s.synd.toNat < 2 ^ 31 := by
  obtain ⟨hc, -, -, ⟨hp, hS, -⟩, -⟩ := h
  have hp31 := hp.trans (pbc_le_31_of_wf hc le_rfl)
  exact ⟨hp31, lt_two_pow_31 hp31 hS⟩

/-- Settles O47: under the invariant, which every command keeps, each number is below its register's
bound. -/
theorem registersHoldTheirNumbers : Obligations.RegistersHoldTheirNumbers := by
  unfold Obligations.RegistersHoldTheirNumbers
  intro s hs
  obtain ⟨hlen, holen⟩ := hs.toNat_lengths
  obtain ⟨hp, hS⟩ := hs.toNat_p_synd
  have hpbc : (toWord (pbc s.fb.length)).toNat = pbc s.fb.length :=
    toNat_toWord (hs.pbc_le_31.trans_lt (by decide))
  refine ⟨hlen, holen, hp, hS, fun i t ht => ((effect_of_exec ht).inv hs).toNat_lengths,
    fun hfovf => ?_, fun hfovf hne hfit => ?_, fun i hi hfovf hne => ?_, fun hfovf hne hfit => ?_,
    fun hfovf hlong => ?_⟩
  · exact ⟨_, exec_pcnt_of_fovf_false hfovf, hpbc⟩
  · exact ⟨_, exec_henc_of_le (frameRejected_eq_false hfovf hne) hfit, hpbc⟩
  · obtain ⟨clean, u, hu, hexec⟩ := exec_decoder hi (frameRejected_eq_false hfovf hne)
    rw [← hu] at hne ⊢
    exact ⟨_, hexec, hammingDecode_registers clean hne (hu ▸ hs.pbc_le_31)⟩
  · exact ⟨_, exec_fgen_of_le (frameRejected_eq_false hfovf hne) hfit, toNat_toField (fcs_lt _)⟩
  · have hexec := exec_fver_of_eq_append hfovf (payload_append_received s.fb).symm
      (length_received hlong)
    refine ⟨_, hexec, ?_⟩
    rw [apply_ite State.csum, apply_ite State.rcsum, result_csum, result_csum, result_rcsum,
      result_rcsum, ite_self, ite_self]
    exact ⟨toNat_toField (fcs_lt _), toNat_toField (val_received_lt _)⟩

end Sys2Proof.Machine
end
